-- ==== Sys2Proof/Word.lean ====
section
/-!
DEFINITION. The word types of the block (00_scope.md R7, R8: every register is 64 bits wide, a bit vector and not a number).
-/
namespace Sys2Proof

/-- A 64-bit register word (R7 `XLEN` = 64). -/
abbrev Word := BitVec 64

/-- An 8-bit field: OPCODE, ERRCODE, one byte lane of the bus. -/
abbrev Byte := BitVec 8

end Sys2Proof
end

