-- ==== Sys2Proof/Syntax.lean ====
section
/-!
DEFINITION. The syntax: the four commands of spec/opcode_table.json, the raw fields of a command word, the register names of
the window, the host's bus accesses, and the host notation of 30_encoding.md R76.
-/
namespace Sys2Proof

/-- The commands, one constructor per row of the opcode table (30_encoding.md R73). A command word carries no operands (R72). -/
inductive Instr where
  | gcd
  | isprime
  | modinv
  | modexp
deriving DecidableEq, Repr

/-- The fields of a command word (R70): `OPCODE` is bits 7:0, `RSV` is bits 63:8. -/
structure CommandWord where
  opcode : Byte
  rsv : BitVec 56
deriving DecidableEq, Repr

/-- Why a word (or a string of bytes) is no command (R74 `Illegal`, R75, R71). DESIGN CHOICE: three names where R74 has one, safe
(assumption log 11). -/
inductive DecodeError where
  /-- A bit of `RSV` is not zero (R75). -/
  | rsvNonZero
  /-- `RSV` is zero and the opcode is 0x00 or one of 0x05 to 0xFF (R75). -/
  | opcodeReserved (opcode : Byte)
  /-- The bytes are not the eight of one command word (R71). -/
  | notOneWord (bytes : Nat)
deriving DecidableEq, Repr

/-- The seven registers by name (00_scope.md R10). -/
inductive Reg where
  | ctrl
  | cmd
  | status
  | opa
  | opb
  | opc
  | result
deriving DecidableEq, Repr

/-- The eight slots of the window (10_state.md R20, R21): seven registers and one reserved slot. -/
inductive Slot where
  | reg (r : Reg)
  | reserved
deriving DecidableEq, Repr

/-- One host access to the window (00_scope.md R11), by its offset from `BASE_ADDR`: of any size, aligned or not. The window is
64 bytes, so an offset is below 64 (DESIGN CHOICE, safe, assumption log 5). -/
inductive Access where
  | read (off : Fin 64) (size : Nat)
  | write (off : Fin 64) (size : Nat) (v : Word)
deriving DecidableEq, Repr

/-- The host registers `h0` to `h15` (30_encoding.md R76). -/
abbrev HReg := Fin 16

/-- A label of a host program (R76 `label:`), a number for a name (DESIGN CHOICE, safe, assumption log 1). -/
abbrev Label := Nat

/-- The `v` of a host line (R76): "an immediate or a host register". -/
inductive HostVal where
  | imm (w : Word)
  | reg (h : HReg)
deriving DecidableEq, Repr

/-- What one line of a host program does (R76, with the accesses in the form of R11, of which `wr` and `rd` are the admitted
case). -/
inductive HostOp where
  /-- `h <- MemRead(BASE_ADDR + off, size)`. -/
  | memRead (h : HReg) (off : Fin 64) (size : Nat)
  /-- `MemWrite(BASE_ADDR + off, size, v)`. -/
  | memWrite (off : Fin 64) (size : Nat) (v : HostVal)
  | mov (h : HReg) (v : HostVal)
  | add (h m : HReg) (v : HostVal)
  | and (h m : HReg) (v : HostVal)
  | beq (h : HReg) (v : HostVal) (l : Label)
  | bne (h : HReg) (v : HostVal) (l : Label)
  | blt (h : HReg) (v : HostVal) (l : Label)
  | bge (h : HReg) (v : HostVal) (l : Label)
  | bbs (h : HReg) (k : Fin 64) (l : Label)
  | bbc (h : HReg) (k : Fin 64) (l : Label)
  | j (l : Label)
  | halt
deriving DecidableEq, Repr

/-- A line of a host program, with the label that stands before it, if any. -/
structure HostLine where
  label : Option Label
  op : HostOp
deriving DecidableEq, Repr

/-- The label a host line may branch to. -/
def HostOp.target : HostOp → Option Label
  | .beq _ _ l | .bne _ _ l | .blt _ _ l | .bge _ _ l => some l
  | .bbs _ _ l | .bbc _ _ l | .j l => some l
  | .memRead _ _ _ | .memWrite _ _ _ | .mov _ _ | .add _ _ _ | .and _ _ _ | .halt => none

/-- Whether a line is one of R76's host-only lines, which never reach the block. -/
def HostOp.hostOnly : HostOp → Bool
  | .memRead _ _ _ | .memWrite _ _ _ => false
  | .mov _ _ | .add _ _ _ | .and _ _ _ | .beq _ _ _ | .bne _ _ _ | .blt _ _ _ | .bge _ _ _ => true
  | .bbs _ _ _ | .bbc _ _ _ | .j _ | .halt => true

end Sys2Proof
end

