-- ==== Sys2Proof/WellFormed.lean ====
section
/-!
DEFINITION. What the spec asks of a legal command word (30_encoding.md R70, R73) and of a host program's labels (R76).
-/
namespace Sys2Proof

/-- R70: `RSV` "must be zero in a legal command word". -/
def CommandWord.rsvZero (c : CommandWord) : Bool := c.rsv == 0

/-- R73: the opcodes with a command are 0x01 to 0x04. -/
def CommandWord.opcodeAssigned (c : CommandWord) : Bool := 0x01 ≤ c.opcode.toNat && c.opcode.toNat ≤ 0x04

/-- The fields of one of the four legal command words (R73). -/
def CommandWord.wellFormed (c : CommandWord) : Bool := c.rsvZero && c.opcodeAssigned

/-- A command has no operand field (R72), so each of the four is well-formed. -/
def Instr.wellFormed : Instr → Bool
  | .gcd => true
  | .isprime => true
  | .modinv => true
  | .modexp => true

/-- No label is defined twice (R76: `label:` defines a label). -/
def labelsUnique : List HostLine → Bool
  | [] => true
  | line :: rest =>
    (match line.label with
      | none => true
      | some l => rest.all fun r => r.label != some l) && labelsUnique rest

/-- Every branch goes to a label the program defines. -/
def targetsDefined (program : List HostLine) : Bool :=
  program.all fun line =>
    match line.op.target with
    | none => true
    | some l => program.any fun r => r.label == some l

/-- A host program whose labels make sense. -/
def hostProgramWellFormed (program : List HostLine) : Bool := labelsUnique program && targetsDefined program

end Sys2Proof
end

