-- ==== Sys2Proof/Decode.lean ====
section
/-!
DEFINITION. The command encoding of 30_encoding.md (R70 to R75), its decoder and its encoder, and the byte lanes of
20_memory.md R54 through which a byte-addressed host lays a word out.
-/
namespace Sys2Proof

/-- Byte lane `k` of a word: bits `[8k+7 : 8k]` (20_memory.md R54). -/
def lane (w : Word) (k : Fin 8) : Byte := w.extractLsb' (8 * k.val) 8

/-- The eight bytes of a word as they lie in the host's memory, the byte at the lowest address first (R54: little-endian). -/
def lanes (w : Word) : List Byte :=
  [lane w 0, lane w 1, lane w 2, lane w 3, lane w 4, lane w 5, lane w 6, lane w 7]

/-- The word that eight bytes hold, the first in bits 7:0 (R54). No other number of bytes is a word. -/
def ofLanes : List Byte → Option Word
  | [b0, b1, b2, b3, b4, b5, b6, b7] => some (b7 ++ b6 ++ b5 ++ b4 ++ b3 ++ b2 ++ b1 ++ b0)
  | _ => none

/-- `OPCODE`, bits 7:0 (R70). -/
def opcodeField (w : Word) : Byte := w.extractLsb' 0 8

/-- `RSV`, bits 63:8 (R70). -/
def rsvField (w : Word) : BitVec 56 := w.extractLsb' 8 56

/-- The fields of a command word (R70). -/
def commandWordOf (w : Word) : CommandWord := { opcode := opcodeField w, rsv := rsvField w }

/-- The word with given fields: `{RSV, OPCODE}` (R70, R8). -/
def wordOfFields (c : CommandWord) : Word := c.rsv ++ c.opcode

/-- The command an opcode selects (R73, R74). -/
def opcodeCommand (op : Byte) : Option Instr :=
  match op with
  | 0x01#8 => some .gcd
  | 0x02#8 => some .isprime
  | 0x03#8 => some .modinv
  | 0x04#8 => some .modexp
  | _ => none

/-- `decode` of R74, total on every 64-bit word; the spec's `Illegal` is an error that says which check refused the word. -/
def decode (w : Word) : Except DecodeError Instr :=
  if rsvField w ≠ 0 then .error .rsvNonZero
  else
    match opcodeCommand (opcodeField w) with
    | some i => .ok i
    | none => .error (.opcodeReserved (opcodeField w))

/-- Decoding a string of bytes: one command word is exactly eight (R71), little-endian (R54). -/
def decodeBytes (bytes : List Byte) : Except DecodeError Instr :=
  match ofLanes bytes with
  | some w => decode w
  | none => .error (.notOneWord bytes.length)

/-- The opcode of a command (R73). -/
def opcode : Instr → Byte
  | .gcd => 0x01
  | .isprime => 0x02
  | .modinv => 0x03
  | .modexp => 0x04

/-- The command word of a command: its opcode with `RSV` zero (R73). -/
def encode (i : Instr) : Word := wordOfFields { opcode := opcode i, rsv := 0 }

/-- The bytes of a command word in a byte-addressed host. -/
def instrBytes (i : Instr) : List Byte := lanes (encode i)

/-- The mnemonic of `cmd MNEM` in the host notation (R76). -/
def hostMnemonic : Instr → String
  | .gcd => "gcd"
  | .isprime => "isprime"
  | .modinv => "modinv"
  | .modexp => "modexp"

/-- The command a mnemonic names; "Mnemonics are case-insensitive" (R76). -/
def ofMnemonic (name : String) : Option Instr :=
  [Instr.gcd, .isprime, .modinv, .modexp].find? fun i =>
    name.toList.map Char.toLower == (hostMnemonic i).toList

/-- The word whose bits the opcode table numbers `w`: the low `nbits` of `w`, every bit above them 0. -/
def tableWord (nbits w : Nat) : Word := BitVec.ofNat 64 (w % 2 ^ nbits)

/-- What the decoder reads from the eight bytes of the table's word, laid out as R54 says. -/
def decodeTableWord (nbits w : Nat) : Option Instr := (decodeBytes (lanes (tableWord nbits w))).toOption

end Sys2Proof
end

