-- ==== Sys2Proof/Config.lean ====
section
/-!
DEFINITION. The implementation parameters of 00_scope.md R7 that the spec leaves OPEN. Each is an opaque constant: no proof can
see its value, so a statement about the machine holds for every value. They are configuration and no state (R34, R180).
-/
namespace Sys2Proof

/-- `MULMODE` (R7, 43_modular_exponentiator.md R132): `wrap` takes the product mod 2^64 before the reduction, `exact` takes the
full product. The spec's reference configuration is `wrap`. -/
inductive MulMode where
  | wrap
  | exact
deriving DecidableEq, Repr, Inhabited

/-- What the host platform does when an access ends in `BUS_ERROR` (20_memory.md R55: "a trap, an ignored error"). -/
inductive BusErrorAction where
  /-- The host goes on with its next line. -/
  | ignore
  /-- The host leaves its program for good. -/
  | trap
deriving DecidableEq, Repr, Inhabited

/-- Whose step it is (00_scope.md R13). -/
inductive Turn where
  /-- The host runs one line of its program. -/
  | host
  /-- The core's completion step. -/
  | core
  /-- The reset input is asserted. -/
  | reset
deriving DecidableEq, Repr

/-- `MULMODE`, fixed per instance of the block (R132). OPEN. DESIGN CHOICE: an opaque constant, safe (assumption log 4). -/
opaque Config.mulMode : MulMode

/-- Which 64-byte block of the host's address space holds the window. OPEN. DESIGN CHOICE: an opaque constant, safe (assumption log 5). -/
opaque Config.windowIndex : Nat

/-- `BASE_ADDR` (R7, 20_memory.md R51): a platform parameter, a multiple of 64. -/
def Config.baseAddr : Nat := 64 * Config.windowIndex

/-- A free value: the turns that come between the core's turn number `n` past the fixed schedule and the next one. Any list, so any
order of host, core and reset steps (R13) in which the core's turn comes again and again, which is the weak fairness of
70_reset_and_hazards.md R186 and no more. DESIGN CHOICE: this form of it, safe (assumption log 2). -/
opaque Config.freeTurns : Nat → List Turn

/-- The host's reaction to `BUS_ERROR` (R55, 93_implementation_defined.md I12). OPEN. DESIGN CHOICE: an opaque constant,
safe for claims about the block (assumption log 6). -/
opaque Config.onBusError : BusErrorAction

end Sys2Proof
end

