-- ==== Sys2Proof/Machine/State.lean ====
section
/-!
DEFINITION. The state of the machine. `Block` is the spec's own record (10_state.md R34: "Nothing else is state"); `State` adds
the other agents of 00_scope.md R13 as data: the host with its program, the turns still to come, and the bus's last answer.
-/
namespace Sys2Proof.Machine

/-- The block's state, field for field the record of R34. `CTRL` and the reserved slot store nothing. -/
structure Block where
  /-- x[CMD], the last accepted command word (R26). -/
  cmd : Word
  /-- STATUS[0] BUSY: a command is in flight (R27). -/
  busy : Bool
  /-- STATUS[1] DONE: the last accepted command has ended (R27). -/
  done : Bool
  /-- STATUS[2] ERR: the last accepted command ended with an error (R27). -/
  err : Bool
  /-- STATUS[3] REJ: a command write was rejected (sticky, R27). -/
  rej : Bool
  /-- STATUS[15:8] ERRCODE (R27, 60_exceptions.md R150). -/
  errcode : Byte
  /-- x[OPA] (R22). -/
  opa : Word
  /-- x[OPB] (R22). -/
  opb : Word
  /-- x[OPC] (R22). -/
  opc : Word
  /-- x[RESULT] (R23). -/
  result : Word
  /-- lat[OP] (R28). -/
  latOp : Byte
  /-- lat[A] (R28). -/
  latA : Word
  /-- lat[B] (R28). -/
  latB : Word
  /-- lat[C] (R28). -/
  latC : Word
deriving DecidableEq, Repr

/-- Every field zero or false (70_reset_and_hazards.md R180). -/
def Block.reset : Block :=
  { cmd := 0, busy := false, done := false, err := false, rej := false, errcode := 0,
    opa := 0, opb := 0, opc := 0, result := 0, latOp := 0, latA := 0, latB := 0, latC := 0 }

/-- The answer to one bus access (20_memory.md R55). -/
inductive Response where
  /-- `OK(data)`, the answer to an admitted read. -/
  | okData (data : Word)
  /-- `OK` with no data, the answer to an admitted write. -/
  | ok
  /-- `BUS_ERROR`: no data and no state change. -/
  | busError
deriving DecidableEq, Repr

/-- The host agent (30_encoding.md R76): its registers, the index of its next line, and its program. The model's own fields
(DESIGN CHOICE, safe for claims about the block, assumption log 1). -/
structure HostCpu where
  regs : Vector Word 16
  pc : Nat
  program : List HostLine
deriving DecidableEq, Repr

/-- The whole machine: the block, and beside it the model's own fields for the other agents. -/
structure State extends Block where
  /-- The host agent (assumption log 1). -/
  host : HostCpu
  /-- The turns still to come, the next one first (DESIGN CHOICE, safe, assumption log 2). -/
  schedule : List Turn
  /-- How many lists of free turns have been taken past the fixed schedule (DESIGN CHOICE, safe, assumption log 2). -/
  round : Nat
  /-- The bus's answer to the host's last access (DESIGN CHOICE, safe, assumption log 3). -/
  response : Option Response
deriving DecidableEq, Repr

/-- Why the machine stops. -/
inductive Fault where
  /-- Raised by `step` alone: a completion turn finds BUSY = 1 and a latched opcode that selects no command. Safe: the spec gives
  no such completion, and no state reachable from reset is of this kind (assumption log 9). -/
  | latchedOpcodeUnassigned
deriving DecidableEq, Repr

/-- Why an instruction has no meaning. -/
inductive Refusal where
  /-- Raised by an arm of `exec` for a command without a meaning. Safe. No arm raises it: all four commands have one. -/
  | notModelled (mnemonic : String)
deriving DecidableEq, Repr

/-- The machine right after the hardware reset (R180, R182): the block all zero, the host with no program and its registers zero
(95_test_vectors.md section 3), no turn fixed, no free turns taken, no access yet. The values outside the block are the model's:
DESIGN CHOICE, unsafe for claims about the host's registers at reset (assumption log 12). -/
def State.reset : State :=
  { Block.reset with
    host := { regs := Vector.replicate 16 0, pc := 0, program := [] }
    schedule := []
    round := 0
    response := none }

end Sys2Proof.Machine
end

