-- ==== Sys2Proof/Machine/Flags.lean ====
section
/-!
DEFINITION. The STATUS register (10_state.md R27, R34) and the error codes (60_exceptions.md R150): the block's only flags (R31).
-/
namespace Sys2Proof.Machine

/-- `x[STATUS] = zext_64({errcode, 0b0000, rej, err, done, busy})` (R34). -/
def statusWord (s : State) : Word :=
  (s.errcode ++ 0#4 ++ BitVec.ofBool s.rej ++ BitVec.ofBool s.err ++ BitVec.ofBool s.done
    ++ BitVec.ofBool s.busy).setWidth 64

/-- What a command's pseudocode may raise (00_scope.md R12). -/
inductive Raised where
  | operandRange
  | noInverse
deriving DecidableEq, Repr

/-- How a command's pseudocode ends (R12): `complete(r)` or `raise E`. -/
inductive CmdOutcome where
  | complete (r : Word)
  | raise (e : Raised)
deriving DecidableEq, Repr

/-- ERRCODE when there is no error, and while BUSY (R150). -/
def noErrorCode : Byte := 0x00

/-- ERRCODE of `IllegalCmd` (R150). -/
def illegalCmdCode : Byte := 0x01

/-- `code(E)`: ERRCODE of what a command raises (R150, R153). -/
def raisedCode : Raised → Byte
  | .operandRange => 0x02
  | .noInverse => 0x03

end Sys2Proof.Machine
end

