-- ==== Sys2Proof/Machine/Operands.lean ====
section
/-!
DEFINITION. How an operand word is read as an integer and a result put back (00_scope.md R8), and the integer primitives of R9.
-/
namespace Sys2Proof.Machine

/-- `s64(w)`: the value of a word as a two's-complement signed integer (R8). Every operand is read so (30_encoding.md R72). -/
def s64 (w : Word) : Int := w.toInt

/-- `u64(w)`: the value of a word as an unsigned integer (R8). -/
def u64 (w : Word) : Nat := w.toNat

/-- `word64(i)`: the word whose `s64` is `i`, for `i` in the signed range (R8). -/
def word64 (i : Int) : Word := BitVec.ofInt 64 i

/-- `trem(a, b) = a - b * q` with `q` the quotient rounded toward zero (R9). -/
def trem (a b : Int) : Int := a - b * a.tdiv b

/-- One bit of the root after another, from bit `k - 1` down: `r` is the part of the root found so far. -/
def isqrtBits (v : Nat) : Nat → Nat → Nat
  | 0, r => r
  | k + 1, r => if (r + 2 ^ k) * (r + 2 ^ k) ≤ v then isqrtBits v k (r + 2 ^ k) else isqrtBits v k r

/-- `isqrt(v)`: the largest `r` with `r * r ≤ v` (R9; computed bit by bit, DEDUCED, safe, assumption log 10). -/
def isqrt (v : Nat) : Nat := isqrtBits v (v.log2 / 2 + 1) 0

end Sys2Proof.Machine
end

