-- ==== Sys2Proof/Machine/Ops.lean ====
section
/-!
DEFINITION. The named operations over the block's registers: reading and writing a slot, accepting and rejecting a command
word, ending a command with a result or an error (the spec's only "trap mechanism", 60_exceptions.md section 2), and the two
resets.
-/
namespace Sys2Proof.Machine

/-- Ending the last accepted command with an error (R151 `Illegal`, R153): the one operation that stands for taking an exception.
RESULT, CMD, REJ, the operand registers and the latches keep their values; nothing is saved and no control moves (R155). -/
def recordError (code : Byte) (s : State) : State :=
  { s with busy := false, done := true, err := true, errcode := code }

/-- Ending the command in flight with its result (R152). -/
def recordResult (r : Word) (s : State) : State :=
  { s with result := r, busy := false, done := true, err := false, errcode := noErrorCode }

/-- The completion step of a command whose function ended in `o` (R152, R153). -/
def finish (o : CmdOutcome) (s : State) : Host.Outcome State Fault Refusal :=
  match o with
  | .complete r => .next (recordResult r s)
  | .raise e => .next (recordError (raisedCode e) s)

/-- The part of acceptance that starts a legal command (R151, R28): the latches take the opcode and the operand registers. -/
def launch (w : Word) (s : State) : State :=
  { s with
    latOp := opcodeField w, latA := s.opa, latB := s.opb, latC := s.opc,
    busy := true, done := false, err := false, errcode := noErrorCode }

/-- A command write that found BUSY = 0 (R151): CMD takes the word, REJ is cleared, and the word is decoded. -/
def acceptCommand (w : Word) (s : State) : State :=
  match decode w with
  | .error _ => recordError illegalCmdCode { s with cmd := w, rej := false }
  | .ok _ => launch w { s with cmd := w, rej := false }

/-- A command write that found BUSY = 1 (R151): only REJ is set. -/
def rejectCommand (s : State) : State := { s with rej := true }

/-- A command write (R151). -/
def writeCmd (w : Word) (s : State) : State := if s.busy then rejectCommand s else acceptCommand w s

/-- The hardware reset (70_reset_and_hazards.md R180): every field of the block's record is zero or false. The host and the
configuration are not the block's (DEDUCED, safe for claims about the block, assumption log 13). -/
def hardReset (s : State) : State := { s with toBlock := Block.reset }

/-- A write to CTRL (10_state.md R25, R181): bit 0 = 1 is a soft reset, exactly the state change of R180; bits 63:1 are ignored. -/
def writeCtrl (w : Word) (s : State) : State := if w.getLsbD 0 then hardReset s else s

/-- `x[R]` (00_scope.md R10, 10_state.md R21): CTRL reads zero (R25). -/
def readReg (r : Reg) (s : State) : Word :=
  match r with
  | .ctrl => 0
  | .cmd => s.cmd
  | .status => statusWord s
  | .opa => s.opa
  | .opb => s.opb
  | .opc => s.opc
  | .result => s.result

/-- What a read of a slot returns (R21, R53): the reserved slot reads zero. -/
def readSlot (sl : Slot) (s : State) : Word :=
  match sl with
  | .reg r => readReg r s
  | .reserved => 0

/-- What a write to a register does (R21, R57): STATUS and RESULT ignore it. -/
def writeReg (r : Reg) (v : Word) (s : State) : State :=
  match r with
  | .ctrl => writeCtrl v s
  | .cmd => writeCmd v s
  | .status => s
  | .opa => { s with opa := v }
  | .opb => { s with opb := v }
  | .opc => { s with opc := v }
  | .result => s

/-- What a write to a slot does (R21, R53): the reserved slot ignores it. -/
def writeSlot (sl : Slot) (v : Word) (s : State) : State :=
  match sl with
  | .reg r => writeReg r v s
  | .reserved => s

/-- The offset of a register from `BASE_ADDR` (R21). -/
def regOffset : Reg → Fin 64
  | .ctrl => 0x00
  | .cmd => 0x08
  | .status => 0x10
  | .opa => 0x18
  | .opb => 0x20
  | .opc => 0x28
  | .result => 0x30

/-- The offset of a slot from `BASE_ADDR` (R21). -/
def slotOffset : Slot → Fin 64
  | .reg r => regOffset r
  | .reserved => 0x38

/-- The command that the completion step runs: what the latched opcode selects (R152). It is read from the latch alone (R28). -/
def inFlight (s : State) : Option Instr := opcodeCommand s.latOp

end Sys2Proof.Machine
end

