-- ==== Sys2Proof/Machine/Gcd.lean ====
section
/-!
DEFINITION. The command GCD (40_integer_gcd.md).
-/
namespace Sys2Proof.Machine

/-- The loop of R101, `while b != 0: (a, b) <- (b, trem(a, b))`, with a bound on its iterations: `|b|` strictly decreases (R103.1),
so `|b|` iterations are enough (DEDUCED, safe, assumption log 10). -/
def gcdLoop : Nat → Int → Int → Int
  | 0, a, _ => a
  | n + 1, a, b => if b = 0 then a else gcdLoop n b (trem a b)

/-- The value that the loop of R101 leaves in `a`. -/
def gcdValue (a b : Int) : Int := gcdLoop b.natAbs a b

/-- GCD of R101 as a function of its latches; it never raises an error (R102). -/
def gcdCommand (latA latB : Word) : CmdOutcome := .complete (word64 (gcdValue (s64 latA) (s64 latB)))

/-- GCD: its completion step (R101, R102). -/
def execGcd (s : State) : Host.Outcome State Fault Refusal := finish (gcdCommand s.latA s.latB) s

end Sys2Proof.Machine
end

