-- ==== Sys2Proof/Machine/IsPrime.lean ====
section
/-!
DEFINITION. The command ISPRIME (41_primality_test.md).
-/
namespace Sys2Proof.Machine

/-- The loop of R111 from divisor `i`, `while i <= isqrt(v)`, with `root` for `isqrt(v)` and a bound on its iterations; answers
whether it ends without a divisor. -/
def trialLoop (v root : Nat) : Nat → Nat → Bool
  | 0, _ => true
  | n + 1, i => if i ≤ root then (if v % i = 0 then false else trialLoop v root n (i + 2)) else true

/-- The tests of R111 after the domain check, in the source's order; `i` starts at 3, so `isqrt(v)` iterations are enough
(DEDUCED, safe, assumption log 10). -/
def isPrimeValue (v : Int) : Bool :=
  if v < 2 then false
  else if v = 2 then true
  else if v % 2 = 0 then false
  else trialLoop v.toNat (isqrt v.toNat) (isqrt v.toNat) 3

/-- ISPRIME of R111 as a function of its latch; the domain check is on the whole `s64` value (30_encoding.md R72). -/
def isPrimeCommand (latA : Word) : CmdOutcome :=
  if s64 latA < -2 ^ 31 ∨ s64 latA > 2 ^ 31 - 1 then .raise .operandRange
  else .complete (if isPrimeValue (s64 latA) then 1 else 0)

/-- ISPRIME: its completion step (R111, R112). -/
def execIsPrime (s : State) : Host.Outcome State Fault Refusal := finish (isPrimeCommand s.latA) s

end Sys2Proof.Machine
end

