-- ==== Sys2Proof/Machine/ModExp.lean ====
section
/-!
DEFINITION. The command MODEXP (43_modular_exponentiator.md), for either value of the parameter `MULMODE`.
-/
namespace Sys2Proof.Machine

/-- The product of R132 before its reduction: in full under `EXACT`, mod 2^64 under `WRAP`. A product below 2^64 is the same in both
modes and is given first, so that evaluating one does not wait for the parameter (DESIGN CHOICE, safe, assumption log 4). -/
def product (mode : MulMode) (x y : Nat) : Nat :=
  if x * y < 2 ^ 64 then x * y
  else
    match mode with
    | .exact => x * y
    | .wrap => (x * y) % 2 ^ 64

/-- `mulmod(x, y, m)` of R132. -/
def mulmod (mode : MulMode) (x y m : Nat) : Nat := product mode x y % m

/-- The loop of R131, `while exp > 0`, on the exponent, `r` and `b`, with a bound on its iterations. -/
def powLoop (mode : MulMode) (m : Nat) : Nat → Nat → Nat → Nat → Nat
  | 0, _, r, _ => r
  | n + 1, exp, r, b =>
    if exp = 0 then r
    else powLoop mode m n (exp / 2) (if exp % 2 = 1 then mulmod mode r b m else r) (mulmod mode b b m)

/-- The value of R131 on operands in its domain: `r` starts at `1 mod m`, the base is reduced once. Halving `exp` ends within
`exp` iterations (DEDUCED, safe, assumption log 10). -/
def modExpValue (mode : MulMode) (base exp m : Nat) : Nat := powLoop mode m exp exp (1 % m) (base % m)

/-- MODEXP of R131 as a function of its latches and of `MULMODE`; `m = 0` is out of range like a negative one (R133). -/
def modExpCommand (mode : MulMode) (latA latB latC : Word) : CmdOutcome :=
  if s64 latA < 0 ∨ s64 latB < 0 ∨ s64 latC < 1 then .raise .operandRange
  else .complete (word64 (modExpValue mode (s64 latA).toNat (s64 latB).toNat (s64 latC).toNat))

/-- MODEXP: its completion step (R131, R133), under the block's own `MULMODE`. -/
def execModExp (s : State) : Host.Outcome State Fault Refusal :=
  finish (modExpCommand Config.mulMode s.latA s.latB s.latC) s

end Sys2Proof.Machine
end

