-- ==== Sys2Proof/Machine/ModInv.lean ====
section
/-!
DEFINITION. The command MODINV (42_modular_inverse.md): the source's bounded search, which 90_conflicts.md C2 makes normative.
-/
namespace Sys2Proof.Machine

/-- The loop of R121 with `n` candidates left, the next one `d`: `while d <= L` from `d` runs `L + 1 - d` times. The product `d * e`
is exact (DEDUCED, safe, assumption log 10). -/
def inverseSearch (e L : Nat) : Nat → Nat → Option Nat
  | 0, _ => none
  | n + 1, d => if (d * e) % L = 1 then some d else inverseSearch e L n (d + 1)

/-- The smallest `d` in `[1, L]` that passes R121's test. For `L ≤ 0` the range is empty (R124). -/
def inverseValue (e L : Int) : Option Nat := inverseSearch e.toNat L.toNat L.toNat 1

/-- MODINV of R121 as a function of its latches: `OperandRange` is checked before `NoInverse` (R122). -/
def modInvCommand (latA latB : Word) : CmdOutcome :=
  if s64 latA < 0 then .raise .operandRange
  else
    match inverseValue (s64 latA) (s64 latB) with
    | some d => .complete (word64 d)
    | none => .raise .noInverse

/-- MODINV: its completion step (R121, R122). -/
def execModInv (s : State) : Host.Outcome State Fault Refusal := finish (modInvCommand s.latA s.latB) s

end Sys2Proof.Machine
end

