-- ==== Sys2Proof/Machine/Dispatch.lean ====
section
/-!
DEFINITION. The meaning of each command: its completion step (60_exceptions.md R152, R153), on the latches. `step` takes it when
BUSY = 1 and the latched opcode is the command's. The step that accepts a command word is `writeCmd` (R151), one for all four
(DESIGN CHOICE, safe, assumption log 7).
-/
namespace Sys2Proof.Machine

def exec (i : Instr) (s : State) : Host.Outcome State Fault Refusal :=
  match i with
  | .gcd => Sys2Proof.Machine.execGcd s
  | .isprime => Sys2Proof.Machine.execIsPrime s
  | .modinv => Sys2Proof.Machine.execModInv s
  | .modexp => Sys2Proof.Machine.execModExp s

end Sys2Proof.Machine
end

