-- ==== Sys2Proof/Machine/Bus.lean ====
section
/-!
DEFINITION. The bus target (20_memory.md): which accesses the window admits, what each does and answers, absolute addresses,
and the byte-addressed view of the window.
-/
namespace Sys2Proof.Machine

/-- The slot at an offset (10_state.md R21). Every multiple of 8 below 64 is decoded (R53), no other offset is. -/
def slotAt (off : Fin 64) : Option Slot :=
  match off.val with
  | 0x00 => some (.reg .ctrl)
  | 0x08 => some (.reg .cmd)
  | 0x10 => some (.reg .status)
  | 0x18 => some (.reg .opa)
  | 0x20 => some (.reg .opb)
  | 0x28 => some (.reg .opc)
  | 0x30 => some (.reg .result)
  | 0x38 => some .reserved
  | _ => none

/-- The slot an access reaches: only 8-byte accesses at multiples of 8 are admitted (R52, R53); every other size
is refused (DEDUCED, safe, assumption log 14). -/
def admittedSlot (off : Fin 64) (size : Nat) : Option Slot := if size = 8 then slotAt off else none

/-- One host access, as one atomic step (R55, R56): its response, and the state after it. A read changes nothing (R57); an access
that is not admitted gets `BUS_ERROR` and changes nothing (R52). -/
def access (a : Access) (s : State) : Response × State :=
  match a with
  | .read off size =>
    match admittedSlot off size with
    | some sl => (.okData (readSlot sl s), s)
    | none => (.busError, s)
  | .write off size v =>
    match admittedSlot off size with
    | some sl => (.ok, writeSlot sl v s)
    | none => (.busError, s)

/-- The host address `BASE_ADDR + off` (00_scope.md R11, R51). -/
def busAddress (off : Fin 64) : Nat := Config.baseAddr + off.val

/-- The offset in the window of a host address, if it lies in `BASE_ADDR` to `BASE_ADDR + 0x3F` (R50). -/
def windowOffset (addr : Nat) : Option (Fin 64) :=
  if h : addr - Config.baseAddr < 64 then
    if Config.baseAddr ≤ addr then some ⟨addr - Config.baseAddr, h⟩ else none
  else none

/-- `MemRead(addr, n)` (R11). An address outside the window is routed by the platform and is no access of the block (R51): `none`
(DESIGN CHOICE, safe, assumption log 5). -/
def memRead (addr size : Nat) (s : State) : Option (Response × State) :=
  match windowOffset addr with
  | some off => some (access (.read off size) s)
  | none => none

/-- `MemWrite(addr, n, v)` (R11), `none` as for `memRead`. -/
def memWrite (addr size : Nat) (v : Word) (s : State) : Option (Response × State) :=
  match windowOffset addr with
  | some off => some (access (.write off size v) s)
  | none => none

/-- The slot that holds the byte at an offset: the one at the multiple of 8 at or below it. -/
def slotHolding (off : Fin 64) : Slot :=
  match off.val / 8 with
  | 0 => .reg .ctrl
  | 1 => .reg .cmd
  | 2 => .reg .status
  | 3 => .reg .opa
  | 4 => .reg .opb
  | 5 => .reg .opc
  | 6 => .reg .result
  | _ => .reserved

/-- The byte at an offset of the window: byte `k` of a slot holds register bits `[8k+7 : 8k]` (R54). The block has no
other bytes (R50; DEDUCED, safe, assumption log 8). -/
def byteAt (off : Fin 64) (s : State) : Byte :=
  lane (readSlot (slotHolding off) s) ⟨off.val % 8, Nat.mod_lt _ (by decide)⟩

end Sys2Proof.Machine
end

