-- ==== Sys2Proof/Machine/Platform.lean ====
section
/-!
DEFINITION. The host agent (00_scope.md R13) in the notation of 30_encoding.md R76 and R77: what each line of a host program
does, the pseudo-instructions, and whose turn is next.
-/
namespace Sys2Proof.Machine

/-- A host register. -/
def hostReg (h : HReg) (s : State) : Word := s.host.regs[h]

/-- The value of an operand of a host line. -/
def hostVal (v : HostVal) (s : State) : Word :=
  match v with
  | .imm w => w
  | .reg h => hostReg h s

/-- Writing a host register. -/
def setHostReg (h : HReg) (w : Word) (s : State) : State :=
  { s with host := { s.host with regs := s.host.regs.set h w } }

/-- The host goes to the line of a given index. -/
def goTo (n : Nat) (s : State) : State := { s with host := { s.host with pc := n } }

/-- The host goes to its next line. -/
def advance (s : State) : State := goTo (s.host.pc + 1) s

/-- The index of the line a label stands before; past the end where no line has it (DESIGN CHOICE, unsafe for
programs with an undefined label, assumption log 1). -/
def labelIndex (program : List HostLine) (l : Label) : Nat := program.findIdx fun line => line.label == some l

/-- A jump to a label. -/
def jumpTo (l : Label) (s : State) : State := goTo (labelIndex s.host.program l) s

/-- A conditional branch. -/
def branchIf (c : Bool) (l : Label) (s : State) : State := if c then jumpTo l s else advance s

/-- What the host platform does on `BUS_ERROR` (R55, I12): the parameter `Config.onBusError` (DESIGN CHOICE,
assumption log 6). -/
def afterBusError (s : State) : State :=
  match Config.onBusError with
  | .ignore => advance s
  | .trap => goTo s.host.program.length s

/-- The host takes the answer to its access: `OK(data)` goes to the register of a read. On `BUS_ERROR`, which has no data (R55), the
register of a read keeps its value: DESIGN CHOICE, unsafe for claims about the host, because R55 leaves the host's reaction to the
platform (assumption log 6). -/
def takeResponse (dest : Option HReg) (r : Response) (s : State) : State :=
  match r, dest with
  | .okData d, some h => advance (setHostReg h d { s with response := some r })
  | .okData _, none => advance { s with response := some r }
  | .ok, _ => advance { s with response := some r }
  | .busError, _ => afterBusError { s with response := some r }

/-- The host makes one access and takes its answer. -/
def hostAccess (dest : Option HReg) (a : Access) (s : State) : State :=
  takeResponse dest (access a s).1 (access a s).2

/-- One line of a host program (R76). `blt` and `bge` compare as signed 64-bit values; `add` wraps mod 2^64; `halt` stops the
program, so the host stays at that line. -/
def execLine (op : HostOp) (s : State) : State :=
  match op with
  | .memRead h off size => hostAccess (some h) (.read off size) s
  | .memWrite off size v => hostAccess none (.write off size (hostVal v s)) s
  | .mov h v => advance (setHostReg h (hostVal v s) s)
  | .add h m v => advance (setHostReg h (hostReg m s + hostVal v s) s)
  | .and h m v => advance (setHostReg h (hostReg m s &&& hostVal v s) s)
  | .beq h v l => branchIf (decide (s64 (hostReg h s) = s64 (hostVal v s))) l s
  | .bne h v l => branchIf (decide (s64 (hostReg h s) ≠ s64 (hostVal v s))) l s
  | .blt h v l => branchIf (decide (s64 (hostReg h s) < s64 (hostVal v s))) l s
  | .bge h v l => branchIf (decide (s64 (hostReg h s) ≥ s64 (hostVal v s))) l s
  | .bbs h k l => branchIf ((hostReg h s).getLsbD k.val) l s
  | .bbc h k l => branchIf (!(hostReg h s).getLsbD k.val) l s
  | .j l => jumpTo l s
  | .halt => s

/-- The host's turn: its next line, or nothing where its program has ended. -/
def hostTurn (s : State) : State :=
  match s.host.program[s.host.pc]? with
  | some line => execLine line.op s
  | none => s

/-- Whose turn it is (R13): the schedule says, and where it has run out it is the core's, so that a completion enabled forever is taken
in the end (weak fairness, 70_reset_and_hazards.md R186; DESIGN CHOICE, safe, assumption log 2). -/
def nextTurn (s : State) : Turn :=
  match s.schedule with
  | t :: _ => t
  | [] => .core

/-- The turns to come after the next one. The core's turn past the schedule's end is followed by a list of free turns, of which nothing
is known but that it ends: no number of host steps before a completion is excluded, once or again and again (R186, assumption log 2). -/
def turnsAfter (s : State) : List Turn :=
  match s.schedule with
  | _ :: rest => rest
  | [] => Config.freeTurns s.round

/-- The number of lists of free turns taken, after the next turn (assumption log 2). -/
def roundAfter (s : State) : Nat :=
  match s.schedule with
  | _ :: _ => s.round
  | [] => s.round + 1

/-- The state with that turn taken. -/
def takeTurn (s : State) : State := { s with schedule := turnsAfter s, round := roundAfter s }

/-- `wr REG, v` (R76). -/
def lineWr (r : Reg) (v : HostVal) : HostOp := .memWrite (regOffset r) 8 v

/-- `rd hN, REG` (R76). -/
def lineRd (h : HReg) (r : Reg) : HostOp := .memRead h (regOffset r) 8

/-- `cmd MNEM` (R76). -/
def lineCmd (i : Instr) : HostOp := lineWr .cmd (.imm (encode i))

/-- `srst` (R76). -/
def lineSrst : HostOp := lineWr .ctrl (.imm 1)

/-- A line with no label. -/
def plain (op : HostOp) : HostLine := { label := none, op := op }

/-- `poll hS` (R77), with the fresh label `lp`. -/
def linesPoll (hS : HReg) (lp : Label) : List HostLine :=
  [{ label := some lp, op := lineRd hS .status }, plain (.bbs hS 0 lp)]

/-- The end that the four command pseudo-instructions share (R77): the command, the poll, the read of RESULT. -/
def linesRun (i : Instr) (hD hS : HReg) (lp : Label) : List HostLine :=
  plain (lineCmd i) :: linesPoll hS lp ++ [plain (lineRd hD .result)]

/-- `gcd hD, hS, a, b` (R77). -/
def linesGcd (hD hS : HReg) (a b : HostVal) (lp : Label) : List HostLine :=
  plain (lineWr .opa a) :: plain (lineWr .opb b) :: linesRun .gcd hD hS lp

/-- `isprime hD, hS, v` (R77). -/
def linesIsPrime (hD hS : HReg) (v : HostVal) (lp : Label) : List HostLine :=
  plain (lineWr .opa v) :: linesRun .isprime hD hS lp

/-- `modinv hD, hS, e, L` (R77). -/
def linesModInv (hD hS : HReg) (e L : HostVal) (lp : Label) : List HostLine :=
  plain (lineWr .opa e) :: plain (lineWr .opb L) :: linesRun .modinv hD hS lp

/-- `modexp hD, hS, b, e, m` (R77). -/
def linesModExp (hD hS : HReg) (b e m : HostVal) (lp : Label) : List HostLine :=
  plain (lineWr .opa b) :: plain (lineWr .opb e) :: plain (lineWr .opc m) :: linesRun .modexp hD hS lp

end Sys2Proof.Machine
end

