-- ==== Sys2Proof/Machine/Step.lean ====
section
/-!
DEFINITION. One step of the machine: one turn of the host, of the core or of the reset input (00_scope.md R13).
-/
namespace Sys2Proof.Machine

/-- The core's turn: the completion step, enabled exactly when BUSY = 1 (R13, 60_exceptions.md R152); else nothing happens.
The fault stands in states that no run reaches (DEDUCED, safe, assumption log 9). -/
def coreTurn (s : State) : Host.Outcome State Fault Refusal :=
  if s.busy then
    match inFlight s with
    | some i => exec i s
    | none => .fault .latchedOpcodeUnassigned
  else .next s

/-- One step: the agent whose turn it is makes its step, with that turn taken. -/
def step (s : State) : Host.Outcome State Fault Refusal :=
  match nextTurn s with
  | .host => .next (hostTurn (takeTurn s))
  | .core => coreTurn (takeTurn s)
  | .reset => .next (hardReset (takeTurn s))

/-- The state in which the table's word has just been accepted by an idle block (R151) and the core's turn comes before the turns
still to come: a command comes to run by a host write of its word to CMD, and the very next step is its completion (DESIGN CHOICE,
safe, assumption log 7). -/
def State.withFetchWord (s : State) (nbits w : Nat) : State :=
  acceptCommand (tableWord nbits w) { s with busy := false, schedule := .core :: s.schedule }

end Sys2Proof.Machine
end

