-- ==== Sys2Proof/Safety.lean ====
section
/-!
DEFINITION. What the claims speak of: the spec's loops as relations with no bound on their iterations, the outcome of a command,
and the invariants of a reachable state (10_state.md R29 and what follows from R28, R151 to R153).
-/
namespace Sys2Proof.Safety

open Sys2Proof.Machine

/-- `EuclidRun a b n g`: the loop of 40_integer_gcd.md R101 started on `(a, b)` ends after `n` iterations with `g` in `a`. The
remainder is truncated toward zero (00_scope.md R9), which is `Int.tmod`. -/
inductive EuclidRun : Int → Int → Nat → Int → Prop where
  | stop (a : Int) : EuclidRun a 0 0 a
  | turn {a b : Int} {n : Nat} {g : Int} (hb : b ≠ 0) (rest : EuclidRun b (a.tmod b) n g) : EuclidRun a b (n + 1) g

/-- `mulmod(x, y, m)` as 43_modular_exponentiator.md R132 writes it. -/
def mulmodOf : MulMode → Int → Int → Int → Int
  | .exact, x, y, m => (x * y) % m
  | .wrap, x, y, m => ((x * y) % 2 ^ 64) % m

/-- `PowRun mode m exp r b n out`: the loop of R131 started on `exp`, `r`, `b` ends after `n` iterations with `out` in `r`. -/
inductive PowRun (mode : MulMode) (m : Int) : Int → Int → Int → Nat → Int → Prop where
  | stop (r b : Int) : PowRun mode m 0 r b 0 r
  | odd {exp r b : Int} {n : Nat} {out : Int} (hpos : 0 < exp) (hodd : exp % 2 = 1)
      (rest : PowRun mode m (exp / 2) (mulmodOf mode r b m) (mulmodOf mode b b m) n out) : PowRun mode m exp r b (n + 1) out
  | even {exp r b : Int} {n : Nat} {out : Int} (hpos : 0 < exp) (heven : exp % 2 = 0)
      (rest : PowRun mode m (exp / 2) r (mulmodOf mode b b m) n out) : PowRun mode m exp r b (n + 1) out

/-- The outcome of a command on given operand words (00_scope.md R14: a pure, total function of opcode and operands). -/
def outcomeOn (i : Instr) (a b c : Word) : CmdOutcome :=
  match i with
  | .gcd => gcdCommand a b
  | .isprime => isPrimeCommand a
  | .modinv => modInvCommand a b
  | .modexp => modExpCommand Config.mulMode a b c

/-- The state shows the outcome `o` of an ended command (R152, R153). -/
def Shows (o : CmdOutcome) (s : State) : Prop :=
  match o with
  | .complete r => s.err = false ∧ s.errcode = 0x00 ∧ s.result = r
  | .raise e => s.err = true ∧ s.errcode = raisedCode e

/-- The STATUS invariants of R29, clause for clause. -/
def StatusLegal (s : State) : Prop :=
  (s.busy = true → s.done = false ∧ s.err = false ∧ s.errcode = 0x00) ∧
  (s.err = true → s.done = true ∧ (s.errcode = 0x01 ∨ s.errcode = 0x02 ∨ s.errcode = 0x03)) ∧
  (s.err = false → s.errcode = 0x00) ∧
  ¬ (s.busy = true ∧ s.done = true)

/-- While a command is in flight, CMD holds its word and the opcode latch its opcode (R151: no write changes either then). -/
def InFlightLegal (s : State) : Prop := s.busy = true → ∃ i, s.cmd = encode i ∧ s.latOp = opcode i

/-- Once a command has ended, STATUS and RESULT show its outcome until the next one is accepted: of an illegal word `IllegalCmd`, of
a legal one what its function gives on the latches (20_memory.md R64, 60_exceptions.md R155). -/
def OutcomeShown (s : State) : Prop :=
  s.done = true →
    match decode s.cmd with
    | .error _ => s.err = true ∧ s.errcode = 0x01
    | .ok i => s.latOp = opcode i ∧ Shows (outcomeOn i s.latA s.latB s.latC) s

/-- Neither BUSY nor DONE: no command word has been accepted since reset, so all but the operand registers is as reset left it
(R180, R151). -/
def FreshUntilCommand (s : State) : Prop :=
  s.busy = false → s.done = false →
    s.toBlock = { Block.reset with opa := s.opa, opb := s.opb, opc := s.opc }

/-- The invariant of every reachable state. -/
def MachineInv (s : State) : Prop := StatusLegal s ∧ InFlightLegal s ∧ OutcomeShown s ∧ FreshUntilCommand s

/-- A safe run never stops: every step of it answers a next state. -/
def StepsOn (s : State) : Prop := ∃ t, step s = .next t

end Sys2Proof.Safety
end

