-- ==== Sys2Proof/Certificates/Slice0/Obligations.lean ====
section
/-!
DEFINITION. The statements for the provers. Each docstring names the rule of the spec it formalises. A record update written out
in a statement leaves every field it does not name as it was, so it states the frame as well.
-/

open Sys2Proof Sys2Proof.Machine Sys2Proof.Safety

/-! ### Words and integers (00_scope.md) -/

/-- R8: `s64` lies in the signed range, and `word64` gives back the word, and on that range `s64` of it the integer. -/
def Obligations.SignedReadingAndWordAreInverse : Prop :=
  (∀ w : Word, -2 ^ 63 ≤ s64 w ∧ s64 w ≤ 2 ^ 63 - 1 ∧ word64 (s64 w) = w) ∧
  ∀ i : Int, -2 ^ 63 ≤ i → i ≤ 2 ^ 63 - 1 → s64 (word64 i) = i

/-! ### The command encoding (30_encoding.md) -/

/-- Words written out from the table of R73, with three that R75 keeps illegal, decode as the spec says. Which error each
illegal word gets is the model's choice: the spec has one answer, `Illegal` (assumption log 11). -/
def Obligations.ListedWordsDecodeAsTheTableSays : Prop :=
  decode 0x0000000000000001 = .ok .gcd ∧ decode 0x0000000000000002 = .ok .isprime ∧
  decode 0x0000000000000003 = .ok .modinv ∧ decode 0x0000000000000004 = .ok .modexp ∧
  decode 0x0000000000000000 = .error (.opcodeReserved 0x00) ∧
  decode 0x0000000000000005 = .error (.opcodeReserved 0x05) ∧
  decode 0x0000000100000004 = .error .rsvNonZero

/-- R73: the four command words, and decode and encode agree: each command's word, and the bytes that R54 lays it out in, decode to
it, and no other word decodes to a command. -/
def Obligations.DecodeAndEncodeAgree : Prop :=
  (encode .gcd = 0x0000000000000001 ∧ encode .isprime = 0x0000000000000002 ∧
    encode .modinv = 0x0000000000000003 ∧ encode .modexp = 0x0000000000000004) ∧
  (∀ i : Instr, i.wellFormed = true → decode (encode i) = .ok i ∧ decodeBytes (instrBytes i) = .ok i) ∧
  ∀ (w : Word) (i : Instr), decode w = .ok i → w = encode i

/-- R74, on every 64-bit word: the RSV check first, then the four opcodes, and everything else illegal. -/
def Obligations.DecodeIsTotalAndFollowsTheOpcodeMap : Prop :=
  ∀ w : Word,
    if w.extractLsb' 8 56 ≠ 0 then ∃ e, decode w = .error e
    else if w.extractLsb' 0 8 = 0x01 then decode w = .ok .gcd
    else if w.extractLsb' 0 8 = 0x02 then decode w = .ok .isprime
    else if w.extractLsb' 0 8 = 0x03 then decode w = .ok .modinv
    else if w.extractLsb' 0 8 = 0x04 then decode w = .ok .modexp
    else ∃ e, decode w = .error e

/-! ### The window and the bus (20_memory.md) -/

/-- R54: byte `k` of a word holds bits `[8k+7 : 8k]`, and eight bytes and the word they hold determine each other. -/
def Obligations.ByteLanesAreLittleEndian : Prop :=
  (∀ (w : Word) (k j : Fin 8), (lane w k).getLsbD j.val = w.getLsbD (8 * k.val + j.val)) ∧
  (∀ w : Word, lanes w = [lane w 0, lane w 1, lane w 2, lane w 3, lane w 4, lane w 5, lane w 6, lane w 7] ∧
    ofLanes (lanes w) = some w) ∧
  ∀ (bytes : List Byte) (w : Word), ofLanes bytes = some w → lanes w = bytes

/-- R54, R21: the byte of the window at a slot's offset plus `k` is byte lane `k` of what a read of the slot returns. -/
def Obligations.WindowBytesAreTheSlotsLanes : Prop :=
  ∀ (sl : Slot) (k : Fin 8) (off : Fin 64) (s : State),
    off.val = (slotOffset sl).val + k.val → byteAt off s = lane (readSlot sl s) k

/-- R50, R51, R11: the window lies at `BASE_ADDR`, a multiple of 64, and takes the accesses at its 64 addresses. That the block
answers none of the accesses at other addresses (the third clause) is the model's choice: R51 leaves their routing to the platform
(assumption log 5). -/
def Obligations.WindowLiesAtBaseAddr : Prop :=
  Config.baseAddr % 64 = 0 ∧
  (∀ (off : Fin 64) (size : Nat) (v : Word) (s : State),
    memRead (Config.baseAddr + off.val) size s = some (access (.read off size) s) ∧
    memWrite (Config.baseAddr + off.val) size v s = some (access (.write off size v) s)) ∧
  ∀ (addr size : Nat) (v : Word) (s : State), addr < Config.baseAddr ∨ Config.baseAddr + 0x3F < addr →
    memRead addr size s = none ∧ memWrite addr size v s = none

/-- R52: exactly the 8-byte accesses at multiples of 8 are admitted; every other one gets `BUS_ERROR` and changes nothing. The sizes R52
does not name (0, 3 and those above 8, other than 1, 2 and 4) are refused by the model's inference (DEDUCED, assumption log 14). -/
def Obligations.OnlyAlignedWordAccessesAreAdmitted : Prop :=
  ∀ (off : Fin 64) (size : Nat) (v : Word) (s : State),
    (size = 8 ∧ off.val % 8 = 0 →
      (∃ d, access (.read off size) s = (.okData d, s)) ∧ (access (.write off size v) s).1 = .ok) ∧
    (size ≠ 8 ∨ off.val % 8 ≠ 0 →
      access (.read off size) s = (.busError, s) ∧ access (.write off size v) s = (.busError, s))

/-- R21, R53, R57: what a read of each of the eight slots returns, with the state unchanged. -/
def Obligations.ReadsReturnTheSlotAndChangeNothing : Prop :=
  ∀ s : State,
    access (.read 0x00 8) s = (.okData 0, s) ∧ access (.read 0x08 8) s = (.okData s.cmd, s) ∧
    access (.read 0x10 8) s = (.okData (statusWord s), s) ∧ access (.read 0x18 8) s = (.okData s.opa, s) ∧
    access (.read 0x20 8) s = (.okData s.opb, s) ∧ access (.read 0x28 8) s = (.okData s.opc, s) ∧
    access (.read 0x30 8) s = (.okData s.result, s) ∧ access (.read 0x38 8) s = (.okData 0, s)

/-- R27, R34: the fields of STATUS as a read of offset 0x10 returns them; its reserved bits read 0. -/
def Obligations.StatusReadsItsFieldsAndZeros : Prop :=
  ∀ s : State, ∃ w : Word, access (.read 0x10 8) s = (.okData w, s) ∧
    w.getLsbD 0 = s.busy ∧ w.getLsbD 1 = s.done ∧ w.getLsbD 2 = s.err ∧ w.getLsbD 3 = s.rej ∧
    w.extractLsb' 4 4 = 0 ∧ w.extractLsb' 8 8 = s.errcode ∧ w.extractLsb' 16 48 = 0

/-- R22, R57: a write to OPA, OPB or OPC stores any value, in every state (BUSY or not), and does nothing else. -/
def Obligations.OperandWritesStoreTheWord : Prop :=
  ∀ (v : Word) (s : State),
    access (.write 0x18 8 v) s = (.ok, { s with opa := v }) ∧
    access (.write 0x20 8 v) s = (.ok, { s with opb := v }) ∧
    access (.write 0x28 8 v) s = (.ok, { s with opc := v })

/-- R57, R53: writes to STATUS, RESULT and the reserved slot are ignored, with an `OK` response. -/
def Obligations.ReadOnlySlotsIgnoreWrites : Prop :=
  ∀ (v : Word) (s : State),
    access (.write 0x10 8 v) s = (.ok, s) ∧ access (.write 0x30 8 v) s = (.ok, s) ∧
    access (.write 0x38 8 v) s = (.ok, s)

/-! ### Command write, soft reset, hardware reset (60_exceptions.md, 70_reset_and_hazards.md) -/

/-- R151: a command write is rejected while BUSY, ends at once as `IllegalCmd` for a word that decodes to no command, and else loads
the latches and sets BUSY. It always gets `OK`. -/
def Obligations.CommandWriteRejectsRefusesOrLaunches : Prop :=
  ∀ (w : Word) (s : State),
    (s.busy = true → access (.write 0x08 8 w) s = (.ok, { s with rej := true })) ∧
    (s.busy = false → (∃ e, decode w = .error e) → access (.write 0x08 8 w) s =
      (.ok, { s with cmd := w, rej := false, busy := false, done := true, err := true, errcode := 0x01 })) ∧
    (s.busy = false → (∃ i, decode w = .ok i) → access (.write 0x08 8 w) s =
      (.ok, { s with
        cmd := w, rej := false,
        latOp := w.extractLsb' 0 8, latA := s.opa, latB := s.opb, latC := s.opc,
        busy := true, done := false, err := false, errcode := 0x00 }))

/-- R25, R181: a CTRL write with bit 0 = 1 makes exactly the state change of R180, whatever its other bits; with bit 0 = 0 it
changes nothing. Both get `OK`. A read of CTRL returns 0 and changes nothing. That the host and the turns to come are left as they were
by the reset is the model's inference (DEDUCED, assumption logs 13 and 2). -/
def Obligations.CtrlWriteResetsExactlyOnBitZero : Prop :=
  ∀ (w : Word) (s : State),
    access (.read 0x00 8) s = (.okData 0, s) ∧
    (w.getLsbD 0 = true → access (.write 0x00 8 w) s =
      (.ok, { s with
        cmd := 0, busy := false, done := false, err := false, rej := false, errcode := 0x00,
        opa := 0, opb := 0, opc := 0, result := 0, latOp := 0x00, latA := 0, latB := 0, latC := 0 })) ∧
    (w.getLsbD 0 = false → access (.write 0x00 8 w) s = (.ok, s))

/-- R180: the reset input's step, from any state, sets every field of the block's record to zero or false, so STATUS reads 0. R180 speaks
of the block's record alone: that the host and the last response are left as they were is the model's choice (DEDUCED, assumption
log 13), and so is the schedule with its turn taken off (assumption log 2). -/
def Obligations.HardwareResetClearsTheBlock : Prop :=
  ∀ (s : State) (rest : List Turn), s.schedule = .reset :: rest →
    ∃ t, step s = .next t ∧
      t = { s with
        cmd := 0, busy := false, done := false, err := false, rej := false, errcode := 0x00,
        opa := 0, opb := 0, opc := 0, result := 0, latOp := 0x00, latA := 0, latB := 0, latC := 0,
        schedule := rest } ∧
      statusWord t = 0

/-- R180, R21: in the state after reset every slot reads 0 and the latches are 0. -/
def Obligations.ResetStateReadsZero : Prop :=
  (∀ sl : Slot, readSlot sl State.reset = 0) ∧
  State.reset.latOp = 0x00 ∧ State.reset.latA = 0 ∧ State.reset.latB = 0 ∧ State.reset.latC = 0

/-- R156, R185: a command write rejected while BUSY does not disturb the command in flight: its completion step ends as it would have,
but for REJ. -/
def Obligations.RejectionDoesNotDisturbTheCommandInFlight : Prop :=
  ∀ (i : Instr) (w : Word) (s : State), s.busy = true →
    ∃ t, exec i s = .next t ∧ exec i (access (.write 0x08 8 w) s).2 = .next { t with rej := true }

/-- R190: a soft reset while BUSY discards the command in flight: STATUS, RESULT and the operand registers are 0, and a core's turn
right after it completes nothing. -/
def Obligations.SoftResetAbortsTheCommandInFlight : Prop :=
  ∀ (s : State) (rest : List Turn), s.busy = true → s.schedule = .core :: rest →
    ∃ t, access (.write 0x00 8 0x1) s = (.ok, t) ∧
      t.result = 0 ∧ statusWord t = 0 ∧ t.opa = 0 ∧ t.opb = 0 ∧ t.opc = 0 ∧
      step t = .next { t with schedule := rest }

/-! ### GCD (40_integer_gcd.md) -/

/-- R101, R102: the word 0x1 is GCD, and GCD completes on every pair of latched words with the value the spec's loop leaves in `a`, and raises no error. -/
def Obligations.GcdCompletesWithEuclidsValue : Prop :=
  decode 0x0000000000000001 = .ok .gcd ∧
  ∀ s : State, ∃ (n : Nat) (g : Int), EuclidRun (s64 s.latA) (s64 s.latB) n g ∧ s64 (word64 g) = g ∧
    exec .gcd s = .next { s with result := word64 g, busy := false, done := true, err := false, errcode := 0x00 }

/-- R103.3: the magnitude of GCD's result is the mathematical greatest common divisor of the latched operands. -/
def Obligations.GcdMagnitudeIsTheGreatestCommonDivisor : Prop :=
  ∀ s : State, ∃ r : Word,
    exec .gcd s = .next { s with result := r, busy := false, done := true, err := false, errcode := 0x00 } ∧
    (s64 r).natAbs = Int.gcd (s64 s.latA) (s64 s.latB)

/-- R103.4: the sign of GCD's result is that of `a` after an even number of iterations of the loop and that of `b` after an odd one; a
result of 0 comes from two zeros alone. -/
def Obligations.GcdSignFollowsTheIterationCount : Prop :=
  ∀ (s : State) (n : Nat) (g : Int), EuclidRun (s64 s.latA) (s64 s.latB) n g →
    ∃ t, exec .gcd s = .next t ∧
      (s64 t.result = 0 → s64 s.latA = 0 ∧ s64 s.latB = 0) ∧
      (s64 t.result ≠ 0 → n % 2 = 0 → (s64 t.result).sign = (s64 s.latA).sign) ∧
      (s64 t.result ≠ 0 → n % 2 = 1 → (s64 t.result).sign = (s64 s.latB).sign)

/-- R103.5, R103.6: `gcd(a, 0)` is `a` exactly, and `gcd(0, b)` is `b` for `b` not 0. -/
def Obligations.GcdWithZeroIsTheOtherOperand : Prop :=
  ∀ s : State,
    (s.latB = 0 → exec .gcd s =
      .next { s with result := s.latA, busy := false, done := true, err := false, errcode := 0x00 }) ∧
    (s.latA = 0 → s.latB ≠ 0 → exec .gcd s =
      .next { s with result := s.latB, busy := false, done := true, err := false, errcode := 0x00 })

/-! ### ISPRIME (41_primality_test.md) -/

/-- R111: the word 0x2 is ISPRIME. Outside the signed 32-bit range it ends with `OperandRange`; on it, the result is 0 below 2, 1 for
2, 0 for another even number, and for an odd one 1 exactly when no odd `i` from 3 to `isqrt(v)`, inclusive, divides it. -/
def Obligations.IsPrimeTriesOddDivisorsUpToTheRoot : Prop :=
  decode 0x0000000000000002 = .ok .isprime ∧
  ∀ s : State,
    if s64 s.latA < -2 ^ 31 ∨ s64 s.latA > 2 ^ 31 - 1 then
      exec .isprime s = .next { s with busy := false, done := true, err := true, errcode := 0x02 }
    else ∃ r : Word,
      exec .isprime s = .next { s with result := r, busy := false, done := true, err := false, errcode := 0x00 } ∧
      if s64 s.latA < 2 then r = 0
      else if s64 s.latA = 2 then r = 1
      else if s64 s.latA % 2 = 0 then r = 0
      else (r = 1 ∨ r = 0) ∧
        (r = 1 ↔ ∀ i : Int, 3 ≤ i → i % 2 = 1 → i ≤ (Nat.sqrt (s64 s.latA).toNat : Int) → s64 s.latA % i ≠ 0)

/-- R113: on the signed 32-bit range ISPRIME's result is 1 exactly for a prime, and 0 otherwise; the trial loop's bound is at most
46340. -/
def Obligations.IsPrimeDecidesPrimality : Prop :=
  ∀ s : State, -2 ^ 31 ≤ s64 s.latA → s64 s.latA ≤ 2 ^ 31 - 1 →
    ∃ r : Word,
      exec .isprime s = .next { s with result := r, busy := false, done := true, err := false, errcode := 0x00 } ∧
      (r = 1 ∨ r = 0) ∧
      (r = 1 ↔ 2 ≤ s64 s.latA ∧ ∀ k : Int, 1 < k → k < s64 s.latA → ¬ k ∣ s64 s.latA) ∧
      isqrt (s64 s.latA).toNat ≤ 46340

/-- R112: ISPRIME succeeds with 1 or 0 exactly on the signed 32-bit range; outside it, it ends with `OperandRange`, RESULT unchanged. -/
def Obligations.IsPrimeChecksOnlyItsRange : Prop :=
  ∀ s : State,
    (-2 ^ 31 ≤ s64 s.latA ∧ s64 s.latA ≤ 2 ^ 31 - 1 → ∃ r : Word, (r = 1 ∨ r = 0) ∧
      exec .isprime s = .next { s with result := r, busy := false, done := true, err := false, errcode := 0x00 }) ∧
    (s64 s.latA < -2 ^ 31 ∨ 2 ^ 31 - 1 < s64 s.latA →
      exec .isprime s = .next { s with busy := false, done := true, err := true, errcode := 0x02 })

/-! ### MODINV (42_modular_inverse.md) -/

/-- R121, R122: the word 0x3 is MODINV. A negative `e` is `OperandRange`; else the smallest `d` in `[1, L]` with `(d*e) mod L = 1` is the result, and there is
`NoInverse` exactly where there is none. -/
def Obligations.ModInvFindsTheSmallestInverse : Prop :=
  decode 0x0000000000000003 = .ok .modinv ∧
  ∀ s : State,
    (s64 s.latA < 0 → exec .modinv s = .next { s with busy := false, done := true, err := true, errcode := 0x02 }) ∧
    (0 ≤ s64 s.latA → ∀ d : Int, 1 ≤ d → d ≤ s64 s.latB → (d * s64 s.latA) % s64 s.latB = 1 →
      (∀ d' : Int, 1 ≤ d' → d' < d → (d' * s64 s.latA) % s64 s.latB ≠ 1) →
      d ≤ s64 s.latB - 1 ∧ s64 (word64 d) = d ∧ exec .modinv s =
        .next { s with result := word64 d, busy := false, done := true, err := false, errcode := 0x00 }) ∧
    (0 ≤ s64 s.latA → (∀ d : Int, 1 ≤ d → d ≤ s64 s.latB → (d * s64 s.latA) % s64 s.latB ≠ 1) →
      exec .modinv s = .next { s with busy := false, done := true, err := true, errcode := 0x03 })

/-- R123: for `e >= 0` the result is the unique inverse of `e` in `[1, L-1]` when `L >= 2` and `gcd(e, L) = 1`, and `NoInverse`
otherwise, `L <= 1` included. -/
def Obligations.ModInvMeetsItsClosedForm : Prop :=
  ∀ s : State, 0 ≤ s64 s.latA →
    (2 ≤ s64 s.latB ∧ Int.gcd (s64 s.latA) (s64 s.latB) = 1 →
      ∃ d : Int, (1 ≤ d ∧ d ≤ s64 s.latB - 1 ∧ d * s64 s.latA ≡ 1 [ZMOD s64 s.latB]) ∧
        (∀ d' : Int, 1 ≤ d' → d' ≤ s64 s.latB - 1 → d' * s64 s.latA ≡ 1 [ZMOD s64 s.latB] → d' = d) ∧
        s64 (word64 d) = d ∧ exec .modinv s =
          .next { s with result := word64 d, busy := false, done := true, err := false, errcode := 0x00 }) ∧
    (¬ (2 ≤ s64 s.latB ∧ Int.gcd (s64 s.latA) (s64 s.latB) = 1) →
      exec .modinv s = .next { s with busy := false, done := true, err := true, errcode := 0x03 })

/-! ### MODEXP (43_modular_exponentiator.md) -/

/-- R131, R132, for either `MULMODE`: the word 0x4 is MODEXP. MODEXP completes on its domain with what the spec's square-and-multiply loop leaves in `r`; the
loop runs once for each bit of the exponent, at most 63 times (R134.5). Out of the domain it is `OperandRange`. -/
def Obligations.ModExpRunsSquareAndMultiply : Prop :=
  decode 0x0000000000000004 = .ok .modexp ∧
  ∀ s : State,
    (0 ≤ s64 s.latA ∧ 0 ≤ s64 s.latB ∧ 1 ≤ s64 s.latC →
      ∃ (n : Nat) (r : Int),
        PowRun Config.mulMode (s64 s.latC) (s64 s.latB) (1 % s64 s.latC) (s64 s.latA % s64 s.latC) n r ∧
        n = (s64 s.latB).toNat.size ∧ n ≤ 63 ∧ s64 (word64 r) = r ∧ exec .modexp s =
          .next { s with result := word64 r, busy := false, done := true, err := false, errcode := 0x00 }) ∧
    (s64 s.latA < 0 ∨ s64 s.latB < 0 ∨ s64 s.latC < 1 →
      exec .modexp s = .next { s with busy := false, done := true, err := true, errcode := 0x02 })

/-- R133: MODEXP's result lies in `[0, m-1]`; `OperandRange` is raised exactly when `base < 0`, `exp < 0` or `m < 1`, with RESULT
unchanged. -/
def Obligations.ModExpResultIsReducedOrOutOfRange : Prop :=
  ∀ s : State,
    (0 ≤ s64 s.latA ∧ 0 ≤ s64 s.latB ∧ 1 ≤ s64 s.latC → ∃ r : Word, 0 ≤ s64 r ∧ s64 r ≤ s64 s.latC - 1 ∧
      exec .modexp s = .next { s with result := r, busy := false, done := true, err := false, errcode := 0x00 }) ∧
    (s64 s.latA < 0 ∨ s64 s.latB < 0 ∨ s64 s.latC < 1 →
      exec .modexp s = .next { s with busy := false, done := true, err := true, errcode := 0x02 })

/-- R134.1, R134.2: with `m <= 2^32` MODEXP's result is `base^exp mod m`, with `0^0 = 1`, whichever `MULMODE` the block has. -/
def Obligations.ModExpWithSmallModulusIsThePower : Prop :=
  ∀ s : State, 0 ≤ s64 s.latA → 0 ≤ s64 s.latB → 1 ≤ s64 s.latC → s64 s.latC ≤ 2 ^ 32 →
    exec .modexp s = .next { s with
      result := word64 (s64 s.latA ^ (s64 s.latB).toNat % s64 s.latC),
      busy := false, done := true, err := false, errcode := 0x00 }

/-- R134.1: under `EXACT` the command's outcome is `base^exp mod m` for every operand triple in its domain. -/
def Obligations.ModExpUnderExactIsThePower : Prop :=
  ∀ a b c : Word, 0 ≤ s64 a → 0 ≤ s64 b → 1 ≤ s64 c →
    modExpCommand .exact a b c = .complete (word64 (s64 a ^ (s64 b).toNat % s64 c))

/-! ### The completion step: completion, frame, what it reads -/

/-- R152, R153: every command's completion step answers a next state, with BUSY clear and DONE set. CMD, REJ, the operand registers,
the latches and everything outside the block are unchanged, RESULT too on an error, and so is every byte of the window but those
of STATUS and RESULT. -/
def Obligations.EveryCommandCompletesWithinItsFrame : Prop :=
  ∀ (i : Instr) (s : State), ∃ t, exec i s = .next t ∧
    t.busy = false ∧ t.done = true ∧
    t.cmd = s.cmd ∧ t.rej = s.rej ∧ t.opa = s.opa ∧ t.opb = s.opb ∧ t.opc = s.opc ∧
    t.latOp = s.latOp ∧ t.latA = s.latA ∧ t.latB = s.latB ∧ t.latC = s.latC ∧
    t.host = s.host ∧ t.schedule = s.schedule ∧ t.round = s.round ∧ t.response = s.response ∧
    (t.err = false → t.errcode = 0x00) ∧
    (t.err = true → t.result = s.result ∧ (t.errcode = 0x02 ∨ t.errcode = 0x03)) ∧
    ∀ off : Fin 64, ¬ (0x10 ≤ off.val ∧ off.val ≤ 0x17) → ¬ (0x30 ≤ off.val ∧ off.val ≤ 0x37) →
      byteAt off t = byteAt off s

/-- R28: "The completion step reads only the latches": two states with the same operand latches end a command alike. -/
def Obligations.CompletionReadsOnlyTheLatches : Prop :=
  ∀ (i : Instr) (s s' : State), s.latA = s'.latA → s.latB = s'.latB → s.latC = s'.latC →
    ∃ t t', exec i s = .next t ∧ exec i s' = .next t' ∧
      t.err = t'.err ∧ t.errcode = t'.errcode ∧ (t.err = false → t.result = t'.result)

/-- R189: a write to an operand register before a completion and the same write after it leave the same state. -/
def Obligations.OperandWritesDoNotReachTheCommandInFlight : Prop :=
  ∀ (i : Instr) (v : Word) (s : State), ∃ t, exec i s = .next t ∧
    exec i (access (.write 0x18 8 v) s).2 = .next (access (.write 0x18 8 v) t).2 ∧
    exec i (access (.write 0x20 8 v) s).2 = .next (access (.write 0x20 8 v) t).2 ∧
    exec i (access (.write 0x28 8 v) s).2 = .next (access (.write 0x28 8 v) t).2

/-! ### Steps -/

/-- R13, R152: on the core's turn with BUSY = 1, the step is `exec` of the command the latched opcode selects, with that turn taken
off the schedule. That the core's turn comes next once the schedule has ended, with a list of free turns after it, is the model's choice
(assumption log 2); this holds whatever those free turns are. -/
def Obligations.StepRunsTheCommandInFlight : Prop :=
  ∀ (s : State) (i : Instr), s.busy = true → opcodeCommand s.latOp = some i →
    (∀ rest, s.schedule = .core :: rest → step s = exec i { s with schedule := rest }) ∧
    (s.schedule = [] → step s = exec i { s with schedule := Config.freeTurns s.round, round := s.round + 1 })

/-- R151, R152: a word that decodes to a command, once accepted, is what the core's next turn runs: by a write of CMD, and as placed
by `withFetchWord`, which is the model's own (assumption log 7) and puts that turn before those still to come. -/
def Obligations.StepRunsTheDecodedWord : Prop :=
  (∀ (s : State) (w : Word) (i : Instr) (rest : List Turn),
    s.busy = false → s.schedule = .core :: rest → decode w = .ok i →
      ∃ t, access (.write 0x08 8 w) s = (.ok, t) ∧ step t = exec i { t with schedule := rest }) ∧
  ∀ (s : State) (nbits w : Nat) (i : Instr), decodeTableWord nbits w = some i →
    step (s.withFetchWord nbits w) =
      exec i { s.withFetchWord nbits w with schedule := s.schedule }

/-- R13, R152: the completion step is enabled exactly when BUSY = 1: a turn of the core with BUSY = 0 changes nothing but
the turns still to come, whose form is the model's own (assumption log 2). -/
def Obligations.CoreTurnWithoutBusyChangesNothing : Prop :=
  ∀ s : State, s.busy = false →
    (∀ rest, s.schedule = .core :: rest → step s = .next { s with schedule := rest }) ∧
    (s.schedule = [] → step s = .next { s with schedule := Config.freeTurns s.round, round := s.round + 1 })

/-- R29: the state after reset has the STATUS invariants, and every step keeps them, from every state that has them. -/
def Obligations.StepsKeepTheStatusInvariants : Prop :=
  StatusLegal State.reset ∧ ∀ s t : State, StatusLegal s → step s = .next t → StatusLegal t

/-- R64, R155, R151 to R153: every step keeps the whole invariant: STATUS is legal, CMD and the opcode latch name the command in
flight, an ended command's outcome is what STATUS and RESULT show, and before the first command all is as reset left it. -/
def Obligations.StepsKeepTheReachableStateInvariant : Prop :=
  ∀ s t : State, MachineInv s → step s = .next t → MachineInv t

/-- R180: the state after reset has the invariant. -/
def Obligations.ResetStateHasTheInvariant : Prop := MachineInv State.reset

/-- R150, R155: in a state with the invariant, ERRCODE names its cause in the word that failed, which CMD still holds: `IllegalCmd` an
illegal word, `OperandRange` ISPRIME, MODINV or MODEXP, `NoInverse` MODINV; so GCD raises no error, and no other code occurs. -/
def Obligations.ErrorCodesNameTheirCause : Prop :=
  ∀ s : State, MachineInv s →
    (s.err = false → s.errcode = 0x00) ∧
    (s.err = true →
      (s.errcode = 0x01 ∧ ∃ e, decode s.cmd = .error e) ∨
      (s.errcode = 0x02 ∧ (s.cmd = 0x2 ∨ s.cmd = 0x3 ∨ s.cmd = 0x4)) ∨
      (s.errcode = 0x03 ∧ s.cmd = 0x3))

/-- R13, R152: where the opcode latch is legal while BUSY, no step stops: it answers a next state. -/
def Obligations.StepsNeverStopFromALegalState : Prop :=
  ∀ s : State, InFlightLegal s → StepsOn s

/-- R186: from every state whose command in flight is legal, the machine reaches a state with BUSY = 0, within one step more than the
turns still scheduled. The bound is the model's: past the schedule's end the core's turn comes next, and the schedule itself may hold any
number of host turns, so the spec's "no upper bound" stands (assumption log 2). -/
def Obligations.EveryCommandInFlightEnds : Prop :=
  ∀ s : State, InFlightLegal s →
    ∃ k t, k ≤ s.schedule.length + 1 ∧ Host.Core.run Sys2Proof.core k s = .next t ∧ t.busy = false

/-- R23: a step changes RESULT only by a successful completion, or by a reset to 0. -/
def Obligations.ResultChangesOnlyBySuccessOrReset : Prop :=
  ∀ s t : State, step s = .next t → t.result ≠ s.result →
    (nextTurn s = .core ∧ s.busy = true ∧ t.busy = false ∧ t.done = true ∧ t.err = false) ∨ t.toBlock = Block.reset

/-- R28: a step changes a latch only by accepting a legal command word, which loads all four at once, or by a reset. -/
def Obligations.LatchesLoadOnlyAtAcceptance : Prop :=
  ∀ s t : State, step s = .next t →
    ¬ (t.latOp = s.latOp ∧ t.latA = s.latA ∧ t.latB = s.latB ∧ t.latC = s.latC) →
    (nextTurn s = .host ∧ s.busy = false ∧ t.busy = true ∧ (∃ i, decode t.cmd = .ok i) ∧
      t.latOp = t.cmd.extractLsb' 0 8 ∧ t.latA = s.opa ∧ t.latB = s.opb ∧ t.latC = s.opc) ∨
    t.toBlock = Block.reset

/-- R156, R27: only a completion, a host write of CMD or CTRL, and the reset input change what STATUS reads. -/
def Obligations.StatusChangesOnlyByTheSpecsEvents : Prop :=
  ∀ s t : State, step s = .next t → statusWord t ≠ statusWord s →
    (nextTurn s = .core ∧ s.busy = true) ∨ nextTurn s = .reset ∨
    (nextTurn s = .host ∧ ∃ (line : HostLine) (off : Fin 64) (v : HostVal),
      s.host.program[s.host.pc]? = some line ∧ line.op = .memWrite off 8 v ∧ (off = 0x00 ∨ off = 0x08))

/-! ### The command sequence and the host (30_encoding.md R76, 70_reset_and_hazards.md R184) -/

/-- R184: an idle block that gets its operands, then a command word, and then the core's turn, ends with that command's outcome on
those operands: the result in RESULT, or the code in ERRCODE with RESULT as it was. -/
def Obligations.CommandSequenceYieldsTheOutcome : Prop :=
  ∀ (i : Instr) (a b c : Word) (s : State) (rest : List Turn), s.busy = false → s.schedule = .core :: rest →
    ∃ t u, access (.write 0x08 8 (encode i)) (access (.write 0x28 8 c) (access (.write 0x20 8 b)
        (access (.write 0x18 8 a) s).2).2).2 = (.ok, t) ∧
      t.busy = true ∧ t.result = s.result ∧ step t = .next u ∧
      u.busy = false ∧ u.done = true ∧ u.rej = false ∧ Shows (outcomeOn i a b c) u ∧
      (u.err = true → u.result = s.result) ∧
      u.opa = a ∧ u.opb = b ∧ u.opc = c ∧ u.cmd = encode i

/-- R76: host-only lines "never reach the block": they leave the block, the bus's last answer, the turns to come and the program as they are. -/
def Obligations.HostOnlyLinesNeverReachTheBlock : Prop :=
  ∀ (op : HostOp) (s : State), op.hostOnly = true →
    (execLine op s).toBlock = s.toBlock ∧ (execLine op s).response = s.response ∧
    (execLine op s).schedule = s.schedule ∧ (execLine op s).round = s.round ∧
    (execLine op s).host.program = s.host.program

/-- R76, R63: `rd hN, REG` puts the register's value into `hN`, and `wr REG, v` makes the register's write; both get `OK`, and the host
goes to its next line. -/
def Obligations.HostReadAndWriteLinesMakeOneAccess : Prop :=
  ∀ (h : HReg) (r : Reg) (v : HostVal) (s : State),
    execLine (lineRd h r) s = { s with
      response := some (.okData (readReg r s))
      host := { s.host with regs := s.host.regs.set h (readReg r s), pc := s.host.pc + 1 } } ∧
    execLine (lineWr r v) s = { writeReg r (hostVal v s) s with
      response := some .ok
      host := { s.host with pc := s.host.pc + 1 } }

/-- R76: `add` wraps mod 2^64, `and` is bitwise, `blt` and `bge` compare as signed 64-bit values, and `bbs` and `bbc` test one bit. A
computing line writes its destination register and goes to the next line; a branch or a jump goes to its label's line or to the next
one; none of them changes anything else. Where a label stands in a program, a label that no line carries, and a `halt` line that keeps the
host where it is are the model's own (assumption log 1). -/
def Obligations.HostOnlyLinesComputeAndBranch : Prop :=
  ∀ (h m : HReg) (k : Fin 64) (v : HostVal) (l : Label) (s : State),
    (execLine (.mov h v) s =
      { s with host := { s.host with regs := s.host.regs.set h (hostVal v s), pc := s.host.pc + 1 } }) ∧
    (∃ r : Word, r.toNat = ((hostReg m s).toNat + (hostVal v s).toNat) % 2 ^ 64 ∧
      execLine (.add h m v) s = { s with host := { s.host with regs := s.host.regs.set h r, pc := s.host.pc + 1 } }) ∧
    (∃ r : Word, (∀ j, r.getLsbD j = ((hostReg m s).getLsbD j && (hostVal v s).getLsbD j)) ∧
      execLine (.and h m v) s = { s with host := { s.host with regs := s.host.regs.set h r, pc := s.host.pc + 1 } }) ∧
    (execLine (.beq h v l) s =
      { s with host.pc := if hostReg h s = hostVal v s then labelIndex s.host.program l else s.host.pc + 1 }) ∧
    (execLine (.bne h v l) s =
      { s with host.pc := if hostReg h s = hostVal v s then s.host.pc + 1 else labelIndex s.host.program l }) ∧
    (execLine (.blt h v l) s =
      { s with host.pc := if (hostReg h s).toInt < (hostVal v s).toInt then labelIndex s.host.program l else s.host.pc + 1 }) ∧
    (execLine (.bge h v l) s =
      { s with host.pc := if (hostReg h s).toInt < (hostVal v s).toInt then s.host.pc + 1 else labelIndex s.host.program l }) ∧
    (execLine (.bbs h k l) s =
      { s with host.pc := if (hostReg h s).getLsbD k.val = true then labelIndex s.host.program l else s.host.pc + 1 }) ∧
    (execLine (.bbc h k l) s =
      { s with host.pc := if (hostReg h s).getLsbD k.val = true then s.host.pc + 1 else labelIndex s.host.program l }) ∧
    (execLine (.j l) s = { s with host.pc := labelIndex s.host.program l }) ∧
    execLine .halt s = s

/-! ### The host's turn (00_scope.md R13, 70_reset_and_hazards.md R186) -/

/-- R13, R76: on the host's turn the step runs the host's next line, with that turn taken off the schedule. That the step of a host past
the end of its program only takes its turn off the schedule is the model's choice (assumption log 2). -/
def Obligations.HostTurnRunsTheNextLine : Prop :=
  ∀ (s : State) (rest : List Turn), s.schedule = .host :: rest →
    (∀ line : HostLine, s.host.program[s.host.pc]? = some line →
      step s = .next (execLine line.op { s with schedule := rest })) ∧
    (s.host.program[s.host.pc]? = none → step s = .next { s with schedule := rest })

/-- R186: "No upper bound on the number of host steps before completion is given": any number of host steps may come before the
completion. While the program never writes CTRL, they leave the command in flight, the command word and RESULT as they were, whatever
else the host does (R185, R189). -/
def Obligations.AnyNumberOfHostStepsMayPrecedeTheCompletion : Prop :=
  ∀ (n : Nat) (s : State) (rest : List Turn), s.busy = true → s.schedule = List.replicate n .host ++ rest →
    (∀ line ∈ s.host.program, ∀ v : HostVal, line.op ≠ .memWrite 0x00 8 v) →
    ∃ t, Host.Core.run Sys2Proof.core n s = .next t ∧ t.schedule = rest ∧ t.busy = true ∧
      t.cmd = s.cmd ∧ t.result = s.result ∧
      t.latOp = s.latOp ∧ t.latA = s.latA ∧ t.latB = s.latB ∧ t.latC = s.latC
end

