-- ==== Sys2Proof/Laws/Loops.lean ====
section
/-!
SUPPORT. The loops of the four commands obey the equations of the spec's `while` loops: the bound on their iterations is never
what ends them.
-/
namespace Sys2Proof.Machine

/-- The spec's `trem` (00_scope.md R9) is the core library's truncated remainder. -/
theorem trem_eq_tmod (a b : Int) : trem a b = a.tmod b := by
  have h := Int.mul_tdiv_add_tmod a b
  unfold trem
  omega

/-- R103.1: the remainder is smaller than the divisor. -/
theorem trem_natAbs_lt (a : Int) {b : Int} (hb : b ≠ 0) : (trem a b).natAbs < b.natAbs := by
  rw [trem_eq_tmod, Int.natAbs_tmod]
  exact Nat.mod_lt _ (Int.natAbs_pos.mpr hb)

/-- R103.3: `|trem(a, b)| = |a| mod |b|`. -/
theorem trem_natAbs (a b : Int) : (trem a b).natAbs = a.natAbs % b.natAbs := by
  rw [trem_eq_tmod, Int.natAbs_tmod]

@[simp] theorem gcdLoop_zero (n : Nat) (a : Int) : gcdLoop n a 0 = a := by cases n <;> simp [gcdLoop]

/-- Any bound of at least `|b|` gives the same value. -/
theorem gcdLoop_of_le {n : Nat} {a b : Int} (h : b.natAbs ≤ n) : gcdLoop n a b = gcdValue a b := by
  unfold gcdValue
  generalize hm : b.natAbs = m
  induction n using Nat.strong_induction_on generalizing a b m with
  | _ n ih =>
    by_cases hb : b = 0
    · subst hb; simp
    · have hpos : 0 < b.natAbs := Int.natAbs_pos.mpr hb
      obtain ⟨n', rfl⟩ : ∃ n', n = n' + 1 := ⟨n - 1, by omega⟩
      obtain ⟨m', rfl⟩ : ∃ m', m = m' + 1 := ⟨m - 1, by omega⟩
      have hlt := trem_natAbs_lt a hb
      simp only [gcdLoop, hb, if_false]
      rw [ih n' (by omega) (by omega) _ rfl]
      by_cases hmn : m' < n' + 1
      · rw [ih m' hmn (by omega) _ rfl]
      · omega

theorem gcdValue_zero (a : Int) : gcdValue a 0 = a := rfl

/-- One iteration of R101's loop. -/
theorem gcdValue_turn (a : Int) {b : Int} (hb : b ≠ 0) : gcdValue a b = gcdValue b (trem a b) := by
  have hpos : 0 < b.natAbs := Int.natAbs_pos.mpr hb
  have hlt := trem_natAbs_lt a hb
  obtain ⟨m, hm⟩ : ∃ m, b.natAbs = m + 1 := ⟨b.natAbs - 1, by omega⟩
  conv_lhs => unfold gcdValue
  rw [hm]
  simp only [gcdLoop, hb, if_false]
  exact gcdLoop_of_le (by omega)

theorem isqrtBits_spec (v k r : Nat) (hr : r * r ≤ v) (hv : v < (r + 2 ^ k) * (r + 2 ^ k)) :
    isqrtBits v k r * isqrtBits v k r ≤ v ∧ v < (isqrtBits v k r + 1) * (isqrtBits v k r + 1) := by
  induction k generalizing r with
  | zero => exact ⟨hr, by simpa [isqrtBits] using hv⟩
  | succ k ih =>
    unfold isqrtBits
    split
    · rename_i h
      exact ih _ h (by rw [show r + 2 ^ k + 2 ^ k = r + 2 ^ (k + 1) by ring]; exact hv)
    · rename_i h
      exact ih _ hr (by omega)

/-- `isqrt(v)` is the largest `r` with `r * r ≤ v` (R9). -/
theorem isqrt_spec (v : Nat) : isqrt v * isqrt v ≤ v ∧ v < (isqrt v + 1) * (isqrt v + 1) := by
  refine isqrtBits_spec v _ 0 (by simp) ?_
  have h : v < 2 ^ (v.log2 + 1) := Nat.lt_log2_self
  have hle : v.log2 + 1 ≤ (v.log2 / 2 + 1) + (v.log2 / 2 + 1) := by omega
  calc v < 2 ^ (v.log2 + 1) := h
    _ ≤ 2 ^ ((v.log2 / 2 + 1) + (v.log2 / 2 + 1)) := Nat.pow_le_pow_right (by decide) hle
    _ = (0 + 2 ^ (v.log2 / 2 + 1)) * (0 + 2 ^ (v.log2 / 2 + 1)) := by rw [Nat.pow_add]; ring

theorem isqrt_eq_sqrt (v : Nat) : isqrt v = Nat.sqrt v := (Nat.eq_sqrt.mpr (isqrt_spec v))

/-- What the trial loop of R111 says, with a bound that covers the divisors up to the root: no divisor among `i`, `i + 2`, ... -/
theorem trialLoop_iff (v root n i : Nat) (h : root < i + 2 * n) :
    trialLoop v root n i = true ↔ ∀ k, i + 2 * k ≤ root → v % (i + 2 * k) ≠ 0 := by
  induction n generalizing i with
  | zero => simp only [trialLoop, true_iff]; intro k hk; omega
  | succ n ih =>
    unfold trialLoop
    by_cases hi : i ≤ root
    · rw [if_pos hi]
      by_cases hv : v % i = 0
      · simp only [hv, if_true, Bool.false_eq_true, false_iff]
        intro hall
        exact hall 0 (by omega) (by simpa using hv)
      · rw [if_neg hv, ih _ (by omega)]
        constructor
        · intro hall k hk
          rcases k with _ | k
          · simpa using hv
          · have := hall k (by omega)
            rwa [show i + 2 * (k + 1) = i + 2 + 2 * k by ring]
        · intro hall k hk
          have := hall (k + 1) (by omega)
          rwa [show i + 2 + 2 * k = i + 2 * (k + 1) by ring]
    · rw [if_neg hi]
      simp only [true_iff]
      intro k hk
      omega

/-- The search of R121 answers the first candidate that passes. -/
theorem inverseSearch_some {e L n d x : Nat} (h : inverseSearch e L n d = some x) :
    d ≤ x ∧ x < d + n ∧ (x * e) % L = 1 ∧ ∀ y, d ≤ y → y < x → (y * e) % L ≠ 1 := by
  induction n generalizing d with
  | zero => simp [inverseSearch] at h
  | succ n ih =>
    unfold inverseSearch at h
    split at h
    · rename_i hp
      cases h
      exact ⟨le_refl _, by omega, hp, fun y h1 h2 => absurd h2 (by omega)⟩
    · rename_i hp
      obtain ⟨h1, h2, h3, h4⟩ := ih h
      refine ⟨by omega, by omega, h3, fun y hy1 hy2 => ?_⟩
      rcases Nat.eq_or_lt_of_le hy1 with rfl | hlt
      · exact hp
      · exact h4 y hlt hy2

/-- The search of R121 answers nothing exactly when no candidate passes. -/
theorem inverseSearch_none {e L n d : Nat} :
    inverseSearch e L n d = none ↔ ∀ y, d ≤ y → y < d + n → (y * e) % L ≠ 1 := by
  induction n generalizing d with
  | zero =>
    simp only [inverseSearch, true_iff]
    intro y h1 h2
    omega
  | succ n ih =>
    unfold inverseSearch
    split
    · rename_i hp
      simp only [reduceCtorEq, false_iff]
      intro h
      exact h d (le_refl _) (by omega) hp
    · rename_i hp
      rw [ih]
      constructor
      · intro h y h1 h2
        rcases Nat.eq_or_lt_of_le h1 with rfl | hlt
        · exact hp
        · exact h y hlt (by omega)
      · intro h y h1 h2
        exact h y (by omega) (by omega)

/-- R132, `EXACT`. -/
theorem mulmod_exact (x y m : Nat) : mulmod .exact x y m = (x * y) % m := by
  unfold mulmod product; split <;> rfl

/-- R132, `WRAP`. -/
theorem mulmod_wrap (x y m : Nat) : mulmod .wrap x y m = ((x * y) % 2 ^ 64) % m := by
  unfold mulmod product
  split
  · rename_i h; rw [Nat.mod_eq_of_lt h]
  · rfl

/-- R134.2: a product below 2^64 does not depend on `MULMODE`. -/
theorem mulmod_of_lt (mode : MulMode) {x y m : Nat} (h : x * y < 2 ^ 64) : mulmod mode x y m = (x * y) % m := by
  unfold mulmod product; rw [if_pos h]

theorem mulmod_lt (mode : MulMode) (x y : Nat) {m : Nat} (hm : 0 < m) : mulmod mode x y m < m := Nat.mod_lt _ hm

@[simp] theorem powLoop_zero (mode : MulMode) (m n r b : Nat) : powLoop mode m n 0 r b = r := by cases n <;> simp [powLoop]

/-- Any bound of at least the exponent gives the same value. -/
theorem powLoop_of_le (mode : MulMode) (m : Nat) {n exp r b : Nat} (h : exp ≤ n) :
    powLoop mode m n exp r b = powLoop mode m exp exp r b := by
  induction exp using Nat.strong_induction_on generalizing n r b with
  | _ exp ih =>
    rcases Nat.eq_zero_or_pos exp with rfl | hpos
    · simp
    · obtain ⟨n', rfl⟩ : ∃ n', n = n' + 1 := ⟨n - 1, by omega⟩
      obtain ⟨e', rfl⟩ : ∃ e', exp = e' + 1 := ⟨exp - 1, by omega⟩
      have hne : e' + 1 ≠ 0 := by omega
      simp only [powLoop, hne, if_false]
      rw [ih ((e' + 1) / 2) (by omega) (n := n') (by omega), ih ((e' + 1) / 2) (by omega) (n := e') (by omega)]

/-- One iteration of R131's loop. -/
theorem powLoop_turn (mode : MulMode) (m : Nat) {exp : Nat} (r b : Nat) (h : 0 < exp) :
    powLoop mode m exp exp r b =
      powLoop mode m (exp / 2) (exp / 2) (if exp % 2 = 1 then mulmod mode r b m else r) (mulmod mode b b m) := by
  obtain ⟨e', rfl⟩ : ∃ e', exp = e' + 1 := ⟨exp - 1, by omega⟩
  have hne : e' + 1 ≠ 0 := by omega
  conv_lhs => unfold powLoop
  rw [if_neg hne, powLoop_of_le mode m (by omega)]

end Sys2Proof.Machine
end

