-- ==== Sys2Proof/Laws/State.lean ====
section
/-!
SUPPORT. What each named update does to each field of State, one lemma a field, so that no later proof unfolds a record update.
-/
namespace Sys2Proof.Machine


/-! ### `recordError` -/

@[simp] theorem recordError_cmd (code : Byte) (s : State) : (recordError code s).cmd = s.cmd := rfl
@[simp] theorem recordError_busy (code : Byte) (s : State) : (recordError code s).busy = false := rfl
@[simp] theorem recordError_done (code : Byte) (s : State) : (recordError code s).done = true := rfl
@[simp] theorem recordError_err (code : Byte) (s : State) : (recordError code s).err = true := rfl
@[simp] theorem recordError_rej (code : Byte) (s : State) : (recordError code s).rej = s.rej := rfl
@[simp] theorem recordError_errcode (code : Byte) (s : State) : (recordError code s).errcode = code := rfl
@[simp] theorem recordError_opa (code : Byte) (s : State) : (recordError code s).opa = s.opa := rfl
@[simp] theorem recordError_opb (code : Byte) (s : State) : (recordError code s).opb = s.opb := rfl
@[simp] theorem recordError_opc (code : Byte) (s : State) : (recordError code s).opc = s.opc := rfl
@[simp] theorem recordError_result (code : Byte) (s : State) : (recordError code s).result = s.result := rfl
@[simp] theorem recordError_latOp (code : Byte) (s : State) : (recordError code s).latOp = s.latOp := rfl
@[simp] theorem recordError_latA (code : Byte) (s : State) : (recordError code s).latA = s.latA := rfl
@[simp] theorem recordError_latB (code : Byte) (s : State) : (recordError code s).latB = s.latB := rfl
@[simp] theorem recordError_latC (code : Byte) (s : State) : (recordError code s).latC = s.latC := rfl
@[simp] theorem recordError_host (code : Byte) (s : State) : (recordError code s).host = s.host := rfl
@[simp] theorem recordError_schedule (code : Byte) (s : State) : (recordError code s).schedule = s.schedule := rfl
@[simp] theorem recordError_round (code : Byte) (s : State) : (recordError code s).round = s.round := rfl
@[simp] theorem recordError_response (code : Byte) (s : State) : (recordError code s).response = s.response := rfl

/-! ### `recordResult` -/

@[simp] theorem recordResult_cmd (r : Word) (s : State) : (recordResult r s).cmd = s.cmd := rfl
@[simp] theorem recordResult_busy (r : Word) (s : State) : (recordResult r s).busy = false := rfl
@[simp] theorem recordResult_done (r : Word) (s : State) : (recordResult r s).done = true := rfl
@[simp] theorem recordResult_err (r : Word) (s : State) : (recordResult r s).err = false := rfl
@[simp] theorem recordResult_rej (r : Word) (s : State) : (recordResult r s).rej = s.rej := rfl
@[simp] theorem recordResult_errcode (r : Word) (s : State) : (recordResult r s).errcode = noErrorCode := rfl
@[simp] theorem recordResult_opa (r : Word) (s : State) : (recordResult r s).opa = s.opa := rfl
@[simp] theorem recordResult_opb (r : Word) (s : State) : (recordResult r s).opb = s.opb := rfl
@[simp] theorem recordResult_opc (r : Word) (s : State) : (recordResult r s).opc = s.opc := rfl
@[simp] theorem recordResult_result (r : Word) (s : State) : (recordResult r s).result = r := rfl
@[simp] theorem recordResult_latOp (r : Word) (s : State) : (recordResult r s).latOp = s.latOp := rfl
@[simp] theorem recordResult_latA (r : Word) (s : State) : (recordResult r s).latA = s.latA := rfl
@[simp] theorem recordResult_latB (r : Word) (s : State) : (recordResult r s).latB = s.latB := rfl
@[simp] theorem recordResult_latC (r : Word) (s : State) : (recordResult r s).latC = s.latC := rfl
@[simp] theorem recordResult_host (r : Word) (s : State) : (recordResult r s).host = s.host := rfl
@[simp] theorem recordResult_schedule (r : Word) (s : State) : (recordResult r s).schedule = s.schedule := rfl
@[simp] theorem recordResult_round (r : Word) (s : State) : (recordResult r s).round = s.round := rfl
@[simp] theorem recordResult_response (r : Word) (s : State) : (recordResult r s).response = s.response := rfl

/-! ### `launch` -/

@[simp] theorem launch_cmd (w : Word) (s : State) : (launch w s).cmd = s.cmd := rfl
@[simp] theorem launch_busy (w : Word) (s : State) : (launch w s).busy = true := rfl
@[simp] theorem launch_done (w : Word) (s : State) : (launch w s).done = false := rfl
@[simp] theorem launch_err (w : Word) (s : State) : (launch w s).err = false := rfl
@[simp] theorem launch_rej (w : Word) (s : State) : (launch w s).rej = s.rej := rfl
@[simp] theorem launch_errcode (w : Word) (s : State) : (launch w s).errcode = noErrorCode := rfl
@[simp] theorem launch_opa (w : Word) (s : State) : (launch w s).opa = s.opa := rfl
@[simp] theorem launch_opb (w : Word) (s : State) : (launch w s).opb = s.opb := rfl
@[simp] theorem launch_opc (w : Word) (s : State) : (launch w s).opc = s.opc := rfl
@[simp] theorem launch_result (w : Word) (s : State) : (launch w s).result = s.result := rfl
@[simp] theorem launch_latOp (w : Word) (s : State) : (launch w s).latOp = opcodeField w := rfl
@[simp] theorem launch_latA (w : Word) (s : State) : (launch w s).latA = s.opa := rfl
@[simp] theorem launch_latB (w : Word) (s : State) : (launch w s).latB = s.opb := rfl
@[simp] theorem launch_latC (w : Word) (s : State) : (launch w s).latC = s.opc := rfl
@[simp] theorem launch_host (w : Word) (s : State) : (launch w s).host = s.host := rfl
@[simp] theorem launch_schedule (w : Word) (s : State) : (launch w s).schedule = s.schedule := rfl
@[simp] theorem launch_round (w : Word) (s : State) : (launch w s).round = s.round := rfl
@[simp] theorem launch_response (w : Word) (s : State) : (launch w s).response = s.response := rfl

/-! ### `rejectCommand` -/

@[simp] theorem rejectCommand_cmd (s : State) : (rejectCommand s).cmd = s.cmd := rfl
@[simp] theorem rejectCommand_busy (s : State) : (rejectCommand s).busy = s.busy := rfl
@[simp] theorem rejectCommand_done (s : State) : (rejectCommand s).done = s.done := rfl
@[simp] theorem rejectCommand_err (s : State) : (rejectCommand s).err = s.err := rfl
@[simp] theorem rejectCommand_rej (s : State) : (rejectCommand s).rej = true := rfl
@[simp] theorem rejectCommand_errcode (s : State) : (rejectCommand s).errcode = s.errcode := rfl
@[simp] theorem rejectCommand_opa (s : State) : (rejectCommand s).opa = s.opa := rfl
@[simp] theorem rejectCommand_opb (s : State) : (rejectCommand s).opb = s.opb := rfl
@[simp] theorem rejectCommand_opc (s : State) : (rejectCommand s).opc = s.opc := rfl
@[simp] theorem rejectCommand_result (s : State) : (rejectCommand s).result = s.result := rfl
@[simp] theorem rejectCommand_latOp (s : State) : (rejectCommand s).latOp = s.latOp := rfl
@[simp] theorem rejectCommand_latA (s : State) : (rejectCommand s).latA = s.latA := rfl
@[simp] theorem rejectCommand_latB (s : State) : (rejectCommand s).latB = s.latB := rfl
@[simp] theorem rejectCommand_latC (s : State) : (rejectCommand s).latC = s.latC := rfl
@[simp] theorem rejectCommand_host (s : State) : (rejectCommand s).host = s.host := rfl
@[simp] theorem rejectCommand_schedule (s : State) : (rejectCommand s).schedule = s.schedule := rfl
@[simp] theorem rejectCommand_round (s : State) : (rejectCommand s).round = s.round := rfl
@[simp] theorem rejectCommand_response (s : State) : (rejectCommand s).response = s.response := rfl

/-! ### `hardReset` -/

@[simp] theorem hardReset_host (s : State) : (hardReset s).host = s.host := rfl
@[simp] theorem hardReset_schedule (s : State) : (hardReset s).schedule = s.schedule := rfl
@[simp] theorem hardReset_round (s : State) : (hardReset s).round = s.round := rfl
@[simp] theorem hardReset_response (s : State) : (hardReset s).response = s.response := rfl

/-! ### The model's own fields: these updates leave the block alone -/

@[simp] theorem takeTurn_toBlock (s : State) : (takeTurn s).toBlock = s.toBlock := rfl
@[simp] theorem takeTurn_host (s : State) : (takeTurn s).host = s.host := rfl
@[simp] theorem takeTurn_response (s : State) : (takeTurn s).response = s.response := rfl

/-- A turn of the fixed schedule is taken off it. -/
theorem takeTurn_cons {s : State} {t : Turn} {rest : List Turn} (h : s.schedule = t :: rest) :
    takeTurn s = { s with schedule := rest } := by simp [takeTurn, turnsAfter, roundAfter, h]

/-- Past the fixed schedule a list of free turns follows. -/
theorem takeTurn_nil {s : State} (h : s.schedule = []) :
    takeTurn s = { s with schedule := Config.freeTurns s.round, round := s.round + 1 } := by simp [takeTurn, turnsAfter, roundAfter, h]

theorem nextTurn_cons {s : State} {t : Turn} {rest : List Turn} (h : s.schedule = t :: rest) : nextTurn s = t := by
  simp [nextTurn, h]

theorem nextTurn_nil {s : State} (h : s.schedule = []) : nextTurn s = .core := by simp [nextTurn, h]

@[simp] theorem setHostReg_toBlock (h : HReg) (w : Word) (s : State) : (setHostReg h w s).toBlock = s.toBlock := rfl
@[simp] theorem setHostReg_host (h : HReg) (w : Word) (s : State) : (setHostReg h w s).host = { s.host with regs := s.host.regs.set h w } := rfl
@[simp] theorem setHostReg_schedule (h : HReg) (w : Word) (s : State) : (setHostReg h w s).schedule = s.schedule := rfl
@[simp] theorem setHostReg_round (h : HReg) (w : Word) (s : State) : (setHostReg h w s).round = s.round := rfl
@[simp] theorem setHostReg_response (h : HReg) (w : Word) (s : State) : (setHostReg h w s).response = s.response := rfl
@[simp] theorem goTo_toBlock (n : Nat) (s : State) : (goTo n s).toBlock = s.toBlock := rfl
@[simp] theorem goTo_host (n : Nat) (s : State) : (goTo n s).host = { s.host with pc := n } := rfl
@[simp] theorem goTo_schedule (n : Nat) (s : State) : (goTo n s).schedule = s.schedule := rfl
@[simp] theorem goTo_round (n : Nat) (s : State) : (goTo n s).round = s.round := rfl
@[simp] theorem goTo_response (n : Nat) (s : State) : (goTo n s).response = s.response := rfl
@[simp] theorem advance_toBlock (s : State) : (advance s).toBlock = s.toBlock := rfl
@[simp] theorem advance_host (s : State) : (advance s).host = { s.host with pc := s.host.pc + 1 } := rfl
@[simp] theorem advance_schedule (s : State) : (advance s).schedule = s.schedule := rfl
@[simp] theorem advance_round (s : State) : (advance s).round = s.round := rfl
@[simp] theorem advance_response (s : State) : (advance s).response = s.response := rfl
@[simp] theorem jumpTo_toBlock (l : Label) (s : State) : (jumpTo l s).toBlock = s.toBlock := rfl
@[simp] theorem jumpTo_host (l : Label) (s : State) : (jumpTo l s).host = { s.host with pc := labelIndex s.host.program l } := rfl
@[simp] theorem jumpTo_schedule (l : Label) (s : State) : (jumpTo l s).schedule = s.schedule := rfl
@[simp] theorem jumpTo_round (l : Label) (s : State) : (jumpTo l s).round = s.round := rfl
@[simp] theorem jumpTo_response (l : Label) (s : State) : (jumpTo l s).response = s.response := rfl

/-! ### The reset block (70_reset_and_hazards.md R180) -/

@[simp] theorem Block.reset_cmd : Block.reset.cmd = 0 := rfl
@[simp] theorem Block.reset_busy : Block.reset.busy = false := rfl
@[simp] theorem Block.reset_done : Block.reset.done = false := rfl
@[simp] theorem Block.reset_err : Block.reset.err = false := rfl
@[simp] theorem Block.reset_rej : Block.reset.rej = false := rfl
@[simp] theorem Block.reset_errcode : Block.reset.errcode = 0 := rfl
@[simp] theorem Block.reset_opa : Block.reset.opa = 0 := rfl
@[simp] theorem Block.reset_opb : Block.reset.opb = 0 := rfl
@[simp] theorem Block.reset_opc : Block.reset.opc = 0 := rfl
@[simp] theorem Block.reset_result : Block.reset.result = 0 := rfl
@[simp] theorem Block.reset_latOp : Block.reset.latOp = 0 := rfl
@[simp] theorem Block.reset_latA : Block.reset.latA = 0 := rfl
@[simp] theorem Block.reset_latB : Block.reset.latB = 0 := rfl
@[simp] theorem Block.reset_latC : Block.reset.latC = 0 := rfl

/-! ### The state after reset -/

@[simp] theorem hardReset_toBlock (s : State) : (hardReset s).toBlock = Block.reset := rfl
@[simp] theorem reset_toBlock : State.reset.toBlock = Block.reset := rfl

end Sys2Proof.Machine
end

