-- ==== Sys2Proof/Laws/Ops.lean ====
section
/-!
SUPPORT. One lemma per shared operation, saying once everything it can do: the completion step, the command write, an access,
a host turn, a step.
-/
namespace Sys2Proof.Machine

/-- The completion step answers a next state, one of two (R152, R153). -/
theorem finish_next {o : CmdOutcome} {s t : State} (h : finish o s = .next t) :
    (∃ r, o = .complete r ∧ t = recordResult r s) ∨ (∃ e, o = .raise e ∧ t = recordError (raisedCode e) s) := by
  cases o <;> cases h
  · exact .inl ⟨_, rfl, rfl⟩
  · exact .inr ⟨_, rfl, rfl⟩

theorem finish_total (o : CmdOutcome) (s : State) : ∃ t, finish o s = .next t := by
  cases o <;> exact ⟨_, rfl⟩

/-- The meaning of a command is the completion step of its outcome on the latches (R152: it reads only them, R28). -/
theorem exec_eq_finish (i : Instr) (s : State) :
    exec i s = finish (Safety.outcomeOn i s.latA s.latB s.latC) s := by cases i <;> rfl

theorem acceptCommand_illegal {w : Word} {e : DecodeError} (h : decode w = .error e) (s : State) :
    acceptCommand w s = recordError illegalCmdCode { s with cmd := w, rej := false } := by
  simp [acceptCommand, h]

theorem acceptCommand_legal {w : Word} {i : Instr} (h : decode w = .ok i) (s : State) :
    acceptCommand w s = launch w { s with cmd := w, rej := false } := by
  simp [acceptCommand, h]

/-- The three cases of a command write (R151). -/
theorem writeCmd_cases (w : Word) (s : State) :
    (s.busy = true ∧ writeCmd w s = rejectCommand s) ∨
    (s.busy = false ∧ (∃ e, decode w = .error e) ∧
      writeCmd w s = recordError illegalCmdCode { s with cmd := w, rej := false }) ∨
    (s.busy = false ∧ (∃ i, decode w = .ok i) ∧ writeCmd w s = launch w { s with cmd := w, rej := false }) := by
  unfold writeCmd
  by_cases hb : s.busy = true
  · exact .inl ⟨hb, if_pos hb⟩
  · have hb' : s.busy = false := by simpa using hb
    rw [if_neg hb]
    cases hd : decode w with
    | error e => exact .inr (.inl ⟨hb', ⟨e, rfl⟩, acceptCommand_illegal hd s⟩)
    | ok i => exact .inr (.inr ⟨hb', ⟨i, rfl⟩, acceptCommand_legal hd s⟩)

/-- Everything a write to a slot can do to the state (10_state.md R21). -/
theorem writeSlot_cases (sl : Slot) (v : Word) (s : State) :
    writeSlot sl v s = s ∨
    (sl = .reg .ctrl ∧ writeSlot sl v s = hardReset s) ∨
    (sl = .reg .cmd ∧ writeSlot sl v s = writeCmd v s) ∨
    writeSlot sl v s = { s with opa := v } ∨
    writeSlot sl v s = { s with opb := v } ∨
    writeSlot sl v s = { s with opc := v } := by
  cases sl with
  | reserved => exact .inl rfl
  | reg r =>
    cases r
    · by_cases h : v.getLsbD 0 = true
      · exact .inr (.inl ⟨rfl, if_pos h⟩)
      · exact .inl (if_neg h)
    · exact .inr (.inr (.inl ⟨rfl, rfl⟩))
    · exact .inl rfl
    · exact .inr (.inr (.inr (.inl rfl)))
    · exact .inr (.inr (.inr (.inr (.inl rfl))))
    · exact .inr (.inr (.inr (.inr (.inr rfl))))
    · exact .inl rfl

@[simp] theorem acceptCommand_host (w : Word) (s : State) : (acceptCommand w s).host = s.host := by
  unfold acceptCommand; split <;> rfl

@[simp] theorem acceptCommand_schedule (w : Word) (s : State) : (acceptCommand w s).schedule = s.schedule := by
  unfold acceptCommand; split <;> rfl

@[simp] theorem acceptCommand_round (w : Word) (s : State) : (acceptCommand w s).round = s.round := by
  unfold acceptCommand; split <;> rfl

@[simp] theorem writeCmd_host (w : Word) (s : State) : (writeCmd w s).host = s.host := by
  unfold writeCmd; split <;> simp

@[simp] theorem writeCmd_schedule (w : Word) (s : State) : (writeCmd w s).schedule = s.schedule := by
  unfold writeCmd; split <;> simp

@[simp] theorem writeCmd_round (w : Word) (s : State) : (writeCmd w s).round = s.round := by
  unfold writeCmd; split <;> simp

@[simp] theorem writeSlot_host (sl : Slot) (v : Word) (s : State) : (writeSlot sl v s).host = s.host := by
  rcases writeSlot_cases sl v s with h | ⟨-, h⟩ | ⟨-, h⟩ | h | h | h <;> rw [h] <;> simp

@[simp] theorem writeSlot_schedule (sl : Slot) (v : Word) (s : State) : (writeSlot sl v s).schedule = s.schedule := by
  rcases writeSlot_cases sl v s with h | ⟨-, h⟩ | ⟨-, h⟩ | h | h | h <;> rw [h] <;> simp

@[simp] theorem writeSlot_round (sl : Slot) (v : Word) (s : State) : (writeSlot sl v s).round = s.round := by
  rcases writeSlot_cases sl v s with h | ⟨-, h⟩ | ⟨-, h⟩ | h | h | h <;> rw [h] <;> simp

/-- The slot at a slot's own offset is that slot (R21). -/
@[simp] theorem admittedSlot_slotOffset (sl : Slot) : admittedSlot (slotOffset sl) 8 = some sl := by
  cases sl with
  | reserved => rfl
  | reg r => cases r <;> rfl

@[simp] theorem admittedSlot_regOffset (r : Reg) : admittedSlot (regOffset r) 8 = some (.reg r) := by cases r <;> rfl

/-- An admitted access is one of 8 bytes at a slot's offset (R52, R53). -/
theorem admittedSlot_some {off : Fin 64} {size : Nat} {sl : Slot} (h : admittedSlot off size = some sl) :
    size = 8 ∧ off = slotOffset sl := by
  unfold admittedSlot at h
  split at h
  · rename_i hs
    refine ⟨hs, ?_⟩
    unfold slotAt at h
    split at h <;> first | (cases h; apply Fin.ext; assumption) | cases h
  · cases h

/-- No read changes the state (R57). -/
@[simp] theorem access_read_state (off : Fin 64) (size : Nat) (s : State) : (access (.read off size) s).2 = s := by
  unfold access; dsimp only; split <;> rfl

/-- A write changes the state by the slot it reaches, if any (R52). -/
theorem access_write_state (off : Fin 64) (size : Nat) (v : Word) (s : State) :
    (admittedSlot off size = none ∧ access (.write off size v) s = (.busError, s)) ∨
    (∃ sl, admittedSlot off size = some sl ∧ access (.write off size v) s = (.ok, writeSlot sl v s)) := by
  cases h : admittedSlot off size with
  | none => exact .inl ⟨rfl, by simp [access, h]⟩
  | some sl => exact .inr ⟨sl, rfl, by simp [access, h]⟩

@[simp] theorem afterBusError_toBlock (s : State) : (afterBusError s).toBlock = s.toBlock := by
  unfold afterBusError; split <;> rfl

@[simp] theorem afterBusError_schedule (s : State) : (afterBusError s).schedule = s.schedule := by
  unfold afterBusError; split <;> rfl

@[simp] theorem afterBusError_round (s : State) : (afterBusError s).round = s.round := by
  unfold afterBusError; split <;> rfl

/-- Taking an answer is the host's own business. -/
@[simp] theorem takeResponse_toBlock (dest : Option HReg) (r : Response) (s : State) :
    (takeResponse dest r s).toBlock = s.toBlock := by
  unfold takeResponse; split <;> simp

@[simp] theorem takeResponse_schedule (dest : Option HReg) (r : Response) (s : State) :
    (takeResponse dest r s).schedule = s.schedule := by
  unfold takeResponse; split <;> simp

@[simp] theorem takeResponse_round (dest : Option HReg) (r : Response) (s : State) :
    (takeResponse dest r s).round = s.round := by
  unfold takeResponse; split <;> simp

@[simp] theorem branchIf_toBlock (c : Bool) (l : Label) (s : State) : (branchIf c l s).toBlock = s.toBlock := by
  unfold branchIf; split <;> simp

@[simp] theorem branchIf_schedule (c : Bool) (l : Label) (s : State) : (branchIf c l s).schedule = s.schedule := by
  unfold branchIf; split <;> simp

@[simp] theorem branchIf_round (c : Bool) (l : Label) (s : State) : (branchIf c l s).round = s.round := by
  unfold branchIf; split <;> simp

/-- Everything a host line can do to the block: nothing, or the effect of one admitted write (R76, 20_memory.md R63). -/
theorem execLine_block (op : HostOp) (s : State) :
    (execLine op s).toBlock = s.toBlock ∨
    ∃ sl v, op = .memWrite (slotOffset sl) 8 v ∧ (execLine op s).toBlock = (writeSlot sl (hostVal v s) s).toBlock := by
  cases op with
  | memWrite off size v =>
    rcases access_write_state off size (hostVal v s) s with ⟨-, h⟩ | ⟨sl, ha, h⟩
    · exact .inl (by simp [execLine, hostAccess, h])
    · obtain ⟨rfl, rfl⟩ := admittedSlot_some ha
      exact .inr ⟨sl, v, rfl, by simp [execLine, hostAccess, h]⟩
  | _ => exact .inl (by simp [execLine, hostAccess])

theorem execLine_schedule (op : HostOp) (s : State) : (execLine op s).schedule = s.schedule := by
  cases op with
  | memWrite off size v =>
    rcases access_write_state off size (hostVal v s) s with ⟨-, h⟩ | ⟨sl, -, h⟩ <;> simp [execLine, hostAccess, h]
  | _ => simp [execLine, hostAccess]

theorem execLine_round (op : HostOp) (s : State) : (execLine op s).round = s.round := by
  cases op with
  | memWrite off size v =>
    rcases access_write_state off size (hostVal v s) s with ⟨-, h⟩ | ⟨sl, -, h⟩ <;> simp [execLine, hostAccess, h]
  | _ => simp [execLine, hostAccess]

@[simp] theorem hostTurn_schedule (s : State) : (hostTurn s).schedule = s.schedule := by
  unfold hostTurn; split
  · exact execLine_schedule _ s
  · rfl

@[simp] theorem hostTurn_round (s : State) : (hostTurn s).round = s.round := by
  unfold hostTurn; split
  · exact execLine_round _ s
  · rfl

/-- Everything a host turn can do to the block. -/
theorem hostTurn_block (s : State) :
    (hostTurn s).toBlock = s.toBlock ∨
    ∃ line sl v, s.host.program[s.host.pc]? = some line ∧ line.op = .memWrite (slotOffset sl) 8 v ∧
      (hostTurn s).toBlock = (writeSlot sl (hostVal v s) s).toBlock := by
  unfold hostTurn
  split
  · rename_i line hl
    rcases execLine_block line.op s with h | ⟨sl, v, hop, h⟩
    · exact .inl h
    · exact .inr ⟨line, sl, v, hl, hop, h⟩
  · exact .inl rfl

/-- Everything a step can do when it answers a next state: the four kinds of step (00_scope.md R13). -/
theorem step_next {s t : State} (h : step s = .next t) :
    (nextTurn s = .host ∧ t = hostTurn (takeTurn s)) ∨
    (nextTurn s = .reset ∧ t = hardReset (takeTurn s)) ∨
    (nextTurn s = .core ∧ s.busy = false ∧ t = takeTurn s) ∨
    (∃ i, nextTurn s = .core ∧ s.busy = true ∧ opcodeCommand s.latOp = some i ∧
      finish (Safety.outcomeOn i s.latA s.latB s.latC) (takeTurn s) = .next t) := by
  unfold step at h
  split at h
  · rename_i hn; cases h; exact .inl ⟨hn, rfl⟩
  · rename_i hn
    unfold coreTurn at h
    cases hb : s.busy
    · simp [hb] at h
      exact .inr (.inr (.inl ⟨hn, rfl, h.symm⟩))
    · rw [if_pos (by simpa using hb)] at h
      cases hi : opcodeCommand s.latOp with
      | none => simp [inFlight, hi] at h
      | some i =>
        simp only [inFlight, exec_eq_finish, takeTurn_toBlock, hi] at h
        exact .inr (.inr (.inr ⟨i, hn, rfl, rfl, h⟩))
  · rename_i hn; cases h; exact .inr (.inl ⟨hn, rfl⟩)

end Sys2Proof.Machine
end

