-- ==== Sys2Proof/Laws/PerInstr.lean ====
section
/-!
SUPPORT. The statements that are made per instruction, one lemma per constructor of `Instr`.
-/
namespace Sys2Proof.Laws.Encoding

/-- What holds of a command as syntax: it is well-formed, its word's fields are those of a legal command word (30_encoding.md R70,
R73), its opcode is not the zero that R75 keeps illegal, its bytes decode to it, and its mnemonic names it (R76). -/
def Statement (i : Instr) : Prop :=
  i.wellFormed = true ∧ (commandWordOf (encode i)).wellFormed = true ∧ opcode i ≠ 0 ∧
    decodeBytes (instrBytes i) = .ok i ∧ ofMnemonic (hostMnemonic i) = some i

theorem gcd : Statement .gcd := ⟨rfl, by decide, by decide, by rfl, by rfl⟩

theorem isprime : Statement .isprime := ⟨rfl, by decide, by decide, by rfl, by rfl⟩

theorem modinv : Statement .modinv := ⟨rfl, by decide, by decide, by rfl, by rfl⟩

theorem modexp : Statement .modexp := ⟨rfl, by decide, by decide, by rfl, by rfl⟩

end Sys2Proof.Laws.Encoding
end

