-- ==== Sys2Proof/Tests/Slice0.lean ====
section
/-!
SUPPORT. Small tests, with expected values from the spec's own tables and vectors (cited at each), and for every statement with
hypotheses a concrete state and operands that meet them (`witness_<statement>`).
-/
namespace Sys2Proof.Tests

open Sys2Proof.Machine Sys2Proof.Safety

/-! ### Helpers -/

/-- The next state of an outcome, if there is one. -/
def nextOf : Host.Outcome State Fault Refusal → Option State
  | .next s => some s
  | _ => none

/-- A block in which command `i` is in flight with given latches, RESULT holding 7, and nothing else to happen. -/
def inFlightState (i : Instr) (a b c : Int) : State :=
  { State.reset with
    cmd := encode i, busy := true, result := 7, latOp := opcode i, latA := word64 a, latB := word64 b, latC := word64 c }

/-- The machine at reset with a host program and a schedule. -/
def hostState (program : List HostLine) (schedule : List Turn) : State :=
  { State.reset with host := { State.reset.host with program := program }, schedule := schedule }

/-- RESULT and STATUS after a step. -/
def shown (o : Host.Outcome State Fault Refusal) : Option (Word × Word) :=
  (nextOf o).map fun s => (s.result, statusWord s)

/-! ### WellFormed: a term that each check refuses -/

theorem test_rsv_nonzero_refused :
    (commandWordOf 0x0000000100000004).rsvZero = false ∧ (commandWordOf 0x0000000100000004).wellFormed = false := by decide

theorem test_opcode_zero_refused : (commandWordOf 0x0).opcodeAssigned = false := by decide

theorem test_opcode_five_refused : (commandWordOf 0x5).opcodeAssigned = false := by decide

theorem test_label_twice_refused :
    labelsUnique [{ label := some 1, op := .halt }, { label := some 1, op := .halt }] = false := by decide

theorem test_label_missing_refused : targetsDefined [{ label := some 1, op := .j 2 }] = false := by decide

theorem test_poll_well_formed : hostProgramWellFormed (linesPoll 0 1) = true := by decide

/-! ### Decoding: words written out from 30_encoding.md R70 and R73 (RSV 56 bits of zero, then OPCODE) -/

theorem test_decode_gcd : decode (0#56 ++ 0b00000001#8) = .ok .gcd := by decide

theorem test_decode_isprime : decode (0#56 ++ 0b00000010#8) = .ok .isprime := by decide

theorem test_decode_modinv : decode (0#56 ++ 0b00000011#8) = .ok .modinv := by decide

theorem test_decode_modexp : decode (0#56 ++ 0b00000100#8) = .ok .modexp := by decide

/-- R54: byte 0 of the slot holds bits 7:0. -/
theorem test_decode_modexp_bytes : decodeBytes [0x04, 0, 0, 0, 0, 0, 0, 0] = .ok .modexp := by decide

theorem test_decode_big_endian_refused : decodeBytes [0, 0, 0, 0, 0, 0, 0, 0x04] = .error .rsvNonZero := by decide

/-- R71: exactly one length. -/
theorem test_decode_four_bytes_refused : decodeBytes [0x04, 0, 0, 0] = .error (.notOneWord 4) := by decide

theorem test_table_word_decodes : decodeTableWord 64 0x3 = some .modinv := by decide

/-- R76: mnemonics are case-insensitive. -/
theorem test_mnemonic_any_case : ofMnemonic "ModInv" = some .modinv := by decide

/-! ### The commands: at most two steps each, with the vectors of 95_test_vectors.md section 2 -/

/-- G10: three iterations, so the sign of `b`. -/
theorem test_gcd_sign_of_b : shown (step (inFlightState .gcd (-4) 6 0)) = some (0x2, 0x2) := by decide

/-- G15: `gcd(-2^63, 0)` is `-2^63`. -/
theorem test_gcd_most_negative : shown (step (inFlightState .gcd (-2 ^ 63) 0 0)) = some (0x8000000000000000, 0x2) := by decide

/-- P9v: 9 is composite, the bound is inclusive. -/
theorem test_isprime_nine : shown (step (inFlightState .isprime 9 0 0)) = some (0, 0x2) := by decide

/-- P21v: the value is not truncated to 17; RESULT is unchanged. -/
theorem test_isprime_not_truncated : shown (step (inFlightState .isprime 0x100000011 0 0)) = some (7, 0x206) := by decide

/-- I8v: the product is exact. -/
theorem test_modinv_exact_product : shown (step (inFlightState .modinv (2 ^ 62 + 1) (2 ^ 62) 0)) = some (1, 0x2) := by
  decide +kernel

/-- I11v: `lambda = 1` has no inverse; RESULT is unchanged. -/
theorem test_modinv_lambda_one : shown (step (inFlightState .modinv 3 1 0)) = some (7, 0x306) := by decide

/-- X4, in either mode. -/
theorem test_modexp_decrypts : shown (step (inFlightState .modexp 21 173 323)) = some (72, 0x2) := by decide +kernel

/-- X15: the two product paths differ. -/
theorem test_modexp_paths_differ :
    modExpCommand .wrap 3 0x7FFFFFFFFFFFFFFF 0x7FFFFFFFFFFFFFFF = .complete 4779091209599148400 ∧
    modExpCommand .exact 3 0x7FFFFFFFFFFFFFFF 0x7FFFFFFFFFFFFFFF = .complete 6348555216811415212 := by decide +kernel

/-! ### The interface: vectors B2 to B15 of 95_test_vectors.md section 2.5 -/

/-- B2: an opcode with no command ends at once. -/
theorem test_illegal_word : let s := (access (.write 0x08 8 0x5) State.reset).2
    statusWord s = 0x106 ∧ s.cmd = 0x5 ∧ s.result = 0 := by decide

/-- B6: a command write while BUSY is dropped. -/
theorem test_rejected_word : let s := (access (.write 0x08 8 0x1) (inFlightState .modexp 72 5 323)).2
    statusWord s = 0x9 ∧ s.cmd = 0x4 := by decide

/-- B11: CTRL with bit 0 = 0. -/
theorem test_ctrl_bit_zero_clear :
    access (.write 0x00 8 0xFFFFFFFFFFFFFFFE) (inFlightState .gcd 1 2 3) = (.ok, inFlightState .gcd 1 2 3) := by decide

/-- B13, B14: a 4-byte write and a misaligned read. -/
theorem test_bus_errors : access (.write 0x08 4 0x1) State.reset = (.busError, State.reset) ∧
    access (.read 0x0C 8) State.reset = (.busError, State.reset) := by decide

/-- R76: one turn of the host runs `cmd modexp`. -/
theorem test_host_line_issues : ((nextOf (step (hostState [plain (lineCmd .modexp)] [.host]))).map fun s =>
    (s.cmd, statusWord s, s.host.pc)) = some (0x4, 0x1, 1) := by decide

/-- R77: the expansion of `gcd hD, hS, a, b`, its transactions as R76 encodes them. -/
theorem test_gcd_pseudo_instruction : linesGcd 3 0 (.imm 12) (.imm 18) 1 =
    [plain (.memWrite 0x18 8 (.imm 12)), plain (.memWrite 0x20 8 (.imm 18)), plain (.memWrite 0x08 8 (.imm 0x1)),
      { label := some 1, op := .memRead 0 0x10 8 }, plain (.bbs 0 0 1), plain (.memRead 3 0x30 8)] := by decide

/-! ### How a step comes to a command -/

theorem test_reset_idles : (nextOf (step State.reset)).map (·.toBlock) = some Block.reset := by decide

theorem test_fetch_word_runs : shown (step (State.reset.withFetchWord 64 0x1)) = some (0, 0x2) := by decide

/-! ### Witnesses: the hypotheses of each statement are met together -/

theorem witness_SignedReadingAndWordAreInverse :
    (-2 ^ 63 ≤ (-2 ^ 63 : Int) ∧ (-2 ^ 63 : Int) ≤ 2 ^ 63 - 1) ∧
    (-2 ^ 63 ≤ (2 ^ 63 - 1 : Int) ∧ (2 ^ 63 - 1 : Int) ≤ 2 ^ 63 - 1) := by decide

theorem witness_DecodeAndEncodeAgree : Instr.gcd.wellFormed = true ∧ decode 0x4 = .ok .modexp := by decide

/-- One word for each branch of R74's case. -/
theorem witness_DecodeIsTotalAndFollowsTheOpcodeMap :
    (0xFFFFFFFFFFFFFF04 : Word).extractLsb' 8 56 ≠ 0 ∧
    ((0x4 : Word).extractLsb' 8 56 = 0 ∧ (0x4 : Word).extractLsb' 0 8 = 0x04) ∧
    ((0xFF : Word).extractLsb' 8 56 = 0 ∧ (0xFF : Word).extractLsb' 0 8 = 0xFF) := by decide

theorem witness_ByteLanesAreLittleEndian : ofLanes [1, 2, 3, 4, 5, 6, 7, 8] = some 0x0807060504030201 := by decide

theorem witness_WindowBytesAreTheSlotsLanes :
    (63 : Fin 64).val = (slotOffset .reserved).val + (7 : Fin 8).val ∧
    (0 : Fin 64).val = (slotOffset (.reg .ctrl)).val + (0 : Fin 8).val := by decide

/-- The first address above the window; below it there is one whenever `BASE_ADDR` is not 0. -/
theorem witness_WindowLiesAtBaseAddr : Config.baseAddr + 0x3F < Config.baseAddr + 0x40 := by omega

theorem witness_OnlyAlignedWordAccessesAreAdmitted :
    ((8 = 8) ∧ (0x38 : Fin 64).val % 8 = 0) ∧ (4 ≠ 8) ∧ (0x3F : Fin 64).val % 8 ≠ 0 := by decide

theorem witness_CommandWriteRejectsRefusesOrLaunches :
    (inFlightState .gcd 1 2 3).busy = true ∧
    (State.reset.busy = false ∧ ∃ e, decode 0x0 = .error e) ∧ (State.reset.busy = false ∧ ∃ i, decode 0x4 = .ok i) :=
  ⟨rfl, ⟨rfl, _, rfl⟩, rfl, _, rfl⟩

theorem witness_CtrlWriteResetsExactlyOnBitZero :
    (0x1 : Word).getLsbD 0 = true ∧ (0xFFFFFFFFFFFFFFFE : Word).getLsbD 0 = false := by decide

theorem witness_HardwareResetClearsTheBlock :
    ({ inFlightState .gcd 1 2 3 with schedule := [.reset, .core] } : State).schedule = .reset :: [.core] := rfl

theorem witness_RejectionDoesNotDisturbTheCommandInFlight : (inFlightState .modexp 2 3 5).busy = true := rfl

theorem witness_SoftResetAbortsTheCommandInFlight :
    let s : State := { inFlightState .gcd 1 2 3 with schedule := [.core] }
    s.busy = true ∧ s.schedule = .core :: [] := by decide

/-- An odd and an even number of iterations: (4, 6) takes three, (6, 4) two, and (-4, 0) none. -/
theorem witness_GcdSignFollowsTheIterationCount :
    EuclidRun (s64 (inFlightState .gcd (-4) 6 0).latA) (s64 (inFlightState .gcd (-4) 6 0).latB) 3 2 ∧
    EuclidRun (s64 (inFlightState .gcd 6 (-4) 0).latA) (s64 (inFlightState .gcd 6 (-4) 0).latB) 2 2 ∧
    EuclidRun (s64 (inFlightState .gcd (-4) 0 0).latA) (s64 (inFlightState .gcd (-4) 0 0).latB) 0 (-4) ∧
    EuclidRun (s64 (inFlightState .gcd 0 0 0).latA) (s64 (inFlightState .gcd 0 0 0).latB) 0 0 := by
  refine ⟨?_, ?_, .stop _, .stop _⟩
  · exact .turn (by decide) (.turn (by decide) (.turn (by decide) (.stop 2)))
  · exact .turn (by decide) (.turn (by decide) (.stop 2))

theorem witness_GcdWithZeroIsTheOtherOperand :
    (inFlightState .gcd (-4) 0 0).latB = 0 ∧
    (inFlightState .gcd 0 (-5) 0).latA = 0 ∧ (inFlightState .gcd 0 (-5) 0).latB ≠ 0 := by decide

/-- One value for each clause of R111, at the ends of the ranges. -/
theorem witness_IsPrimeTriesOddDivisorsUpToTheRoot :
    s64 (inFlightState .isprime (2 ^ 31) 0 0).latA > 2 ^ 31 - 1 ∧ s64 (inFlightState .isprime 1 0 0).latA < 2 ∧
    s64 (inFlightState .isprime 2 0 0).latA = 2 ∧ s64 (inFlightState .isprime 4 0 0).latA % 2 = 0 ∧
    ¬ s64 (inFlightState .isprime 3 0 0).latA % 2 = 0 := by decide

theorem witness_IsPrimeDecidesPrimality :
    (-2 ^ 31 ≤ s64 (inFlightState .isprime (-2 ^ 31) 0 0).latA ∧ s64 (inFlightState .isprime (-2 ^ 31) 0 0).latA ≤ 2 ^ 31 - 1) ∧
    (-2 ^ 31 ≤ s64 (inFlightState .isprime (2 ^ 31 - 1) 0 0).latA ∧
      s64 (inFlightState .isprime (2 ^ 31 - 1) 0 0).latA ≤ 2 ^ 31 - 1) := by decide

theorem witness_IsPrimeChecksOnlyItsRange :
    s64 (inFlightState .isprime (-2 ^ 31 - 1) 0 0).latA < -2 ^ 31 ∧ 2 ^ 31 - 1 < s64 (inFlightState .isprime (2 ^ 31) 0 0).latA := by
  decide

/-- A negative `e`; the inverse 2 of 2 mod 3, with no smaller one; and `L = 1`, where there is none. -/
theorem witness_ModInvFindsTheSmallestInverse :
    s64 (inFlightState .modinv (-3) 40 0).latA < 0 ∧
    (0 ≤ s64 (inFlightState .modinv 2 3 0).latA ∧ (2 : Int) ≤ s64 (inFlightState .modinv 2 3 0).latB ∧
      (2 * s64 (inFlightState .modinv 2 3 0).latA) % s64 (inFlightState .modinv 2 3 0).latB = 1 ∧
      ∀ d' : Int, 1 ≤ d' → d' < 2 →
        (d' * s64 (inFlightState .modinv 2 3 0).latA) % s64 (inFlightState .modinv 2 3 0).latB ≠ 1) ∧
    (0 ≤ s64 (inFlightState .modinv 3 1 0).latA ∧ ∀ d : Int, 1 ≤ d → d ≤ s64 (inFlightState .modinv 3 1 0).latB →
      (d * s64 (inFlightState .modinv 3 1 0).latA) % s64 (inFlightState .modinv 3 1 0).latB ≠ 1) := by
  have h2 : s64 (inFlightState .modinv 2 3 0).latA = 2 := by decide
  have h3 : s64 (inFlightState .modinv 2 3 0).latB = 3 := by decide
  have h4 : s64 (inFlightState .modinv 3 1 0).latA = 3 := by decide
  have h5 : s64 (inFlightState .modinv 3 1 0).latB = 1 := by decide
  refine ⟨by decide, ⟨by decide, by decide, by decide, ?_⟩, by decide, ?_⟩
  · intro d' h h'; rw [h2, h3]; omega
  · intro d h h'; rw [h5]; omega

theorem witness_ModInvMeetsItsClosedForm :
    (0 ≤ s64 (inFlightState .modinv 47 40 0).latA ∧ 2 ≤ s64 (inFlightState .modinv 47 40 0).latB ∧
      Int.gcd (s64 (inFlightState .modinv 47 40 0).latA) (s64 (inFlightState .modinv 47 40 0).latB) = 1) ∧
    (0 ≤ s64 (inFlightState .modinv 1 1 0).latA ∧ ¬ (2 ≤ s64 (inFlightState .modinv 1 1 0).latB ∧
      Int.gcd (s64 (inFlightState .modinv 1 1 0).latA) (s64 (inFlightState .modinv 1 1 0).latB) = 1)) := by decide

theorem witness_ModExpRunsSquareAndMultiply :
    (0 ≤ s64 (inFlightState .modexp 0 0 1).latA ∧ 0 ≤ s64 (inFlightState .modexp 0 0 1).latB ∧
      1 ≤ s64 (inFlightState .modexp 0 0 1).latC) ∧
    s64 (inFlightState .modexp (-1) 2 7).latA < 0 ∧ s64 (inFlightState .modexp 2 (-1) 7).latB < 0 ∧
    s64 (inFlightState .modexp 2 2 0).latC < 1 := by decide

theorem witness_ModExpResultIsReducedOrOutOfRange :
    (0 ≤ s64 (inFlightState .modexp 5 2 7).latA ∧ 0 ≤ s64 (inFlightState .modexp 5 2 7).latB ∧
      1 ≤ s64 (inFlightState .modexp 5 2 7).latC) ∧ s64 (inFlightState .modexp 2 2 (-7)).latC < 1 := by decide

theorem witness_ModExpWithSmallModulusIsThePower :
    0 ≤ s64 (inFlightState .modexp 5 2 (2 ^ 32)).latA ∧ 0 ≤ s64 (inFlightState .modexp 5 2 (2 ^ 32)).latB ∧
    1 ≤ s64 (inFlightState .modexp 5 2 (2 ^ 32)).latC ∧ s64 (inFlightState .modexp 5 2 (2 ^ 32)).latC ≤ 2 ^ 32 := by decide

theorem witness_ModExpUnderExactIsThePower :
    0 ≤ s64 0x4000000000000000 ∧ 0 ≤ s64 0x2 ∧ 1 ≤ s64 0x7FFFFFFFFFFFFFFF := by decide

/-- Two different states with the same operand latches. -/
theorem witness_CompletionReadsOnlyTheLatches :
    let s := inFlightState .gcd 12 18 0
    let s' : State := { inFlightState .gcd 12 18 0 with opa := 99, result := 5, rej := true }
    s ≠ s' ∧ s.latA = s'.latA ∧ s.latB = s'.latB ∧ s.latC = s'.latC := by decide

theorem witness_StepRunsTheCommandInFlight :
    let s : State := { inFlightState .modexp 2 3 5 with schedule := [.core, .host] }
    (s.busy = true ∧ opcodeCommand s.latOp = some .modexp ∧ s.schedule = .core :: [.host]) ∧
    (inFlightState .gcd 1 2 3).busy = true ∧ opcodeCommand (inFlightState .gcd 1 2 3).latOp = some .gcd ∧
    (inFlightState .gcd 1 2 3).schedule = [] := by decide

theorem witness_StepRunsTheDecodedWord :
    let s : State := { State.reset with schedule := [.core] }
    (s.busy = false ∧ s.schedule = .core :: [] ∧ decode 0x2 = .ok .isprime) ∧ decodeTableWord 64 0x4 = some .modexp := by
  decide

theorem witness_CoreTurnWithoutBusyChangesNothing :
    let s : State := { State.reset with schedule := [.core, .reset] }
    (s.busy = false ∧ s.schedule = .core :: [.reset]) ∧ State.reset.busy = false ∧ State.reset.schedule = [] := by decide

/-- A state with a command in flight that the invariant holds of, and the step from it. -/
theorem witness_StepsKeepTheReachableStateInvariant :
    MachineInv (State.reset.withFetchWord 64 0x1) ∧ ∃ t, step (State.reset.withFetchWord 64 0x1) = .next t := by
  refine ⟨⟨⟨?_, ?_, ?_, ?_⟩, ?_, ?_, ?_⟩, _, rfl⟩
  · intro _; decide
  · intro h; cases h
  · intro _; rfl
  · decide
  · intro _; exact ⟨.gcd, rfl, rfl⟩
  · intro h; cases h
  · intro h; cases h

theorem witness_StepsKeepTheStatusInvariants :
    StatusLegal (State.reset.withFetchWord 64 0x1) ∧ ∃ t, step (State.reset.withFetchWord 64 0x1) = .next t :=
  ⟨witness_StepsKeepTheReachableStateInvariant.1.1, _, rfl⟩

/-- R29's last clause is no constraint: REJ stands with BUSY in a state that a run reaches (B6). -/
theorem test_rej_stands_with_busy : let s := (access (.write 0x08 8 0x1) (State.reset.withFetchWord 64 0x4)).2
    s.rej = true ∧ s.busy = true := by decide

/-- A state with the invariant and an error: an illegal word was written right after reset. -/
theorem witness_ErrorCodesNameTheirCause :
    let s := (access (.write 0x08 8 0x5) State.reset).2
    MachineInv s ∧ s.err = true := by
  refine ⟨⟨⟨?_, ?_, ?_, ?_⟩, ?_, ?_, ?_⟩, rfl⟩
  · intro h; cases h
  · intro _; decide
  · intro h; cases h
  · decide
  · intro h; cases h
  · intro _; exact ⟨rfl, rfl⟩
  · intro _ h; cases h

theorem witness_StepsNeverStopFromALegalState : InFlightLegal (State.reset.withFetchWord 64 0x3) :=
  fun _ => ⟨.modinv, rfl, rfl⟩

theorem witness_EveryCommandInFlightEnds :
    InFlightLegal (State.reset.withFetchWord 64 0x3) ∧ (State.reset.withFetchWord 64 0x3).busy = true :=
  ⟨fun _ => ⟨.modinv, rfl, rfl⟩, rfl⟩

/-- A completion that changes RESULT, and a reset that does. -/
theorem witness_ResultChangesOnlyBySuccessOrReset :
    (∃ t, step (inFlightState .gcd 12 18 0) = .next t ∧ t.result ≠ (inFlightState .gcd 12 18 0).result) ∧
    ∃ t, step { inFlightState .gcd 12 18 0 with schedule := [.reset] } = .next t ∧
      t.result ≠ (inFlightState .gcd 12 18 0).result :=
  ⟨⟨_, rfl, by decide⟩, _, rfl, by decide⟩

/-- A host line whose write of CMD loads the latches. -/
theorem witness_LatchesLoadOnlyAtAcceptance :
    ∃ t, step (hostState [plain (lineCmd .gcd)] [.host]) = .next t ∧
      ¬ (t.latOp = (hostState [plain (lineCmd .gcd)] [.host]).latOp ∧ t.latA = (hostState [plain (lineCmd .gcd)] [.host]).latA ∧
        t.latB = (hostState [plain (lineCmd .gcd)] [.host]).latB ∧ t.latC = (hostState [plain (lineCmd .gcd)] [.host]).latC) :=
  ⟨_, rfl, by decide⟩

/-- A completion, a reset and a host write of CMD, each of which changes STATUS. -/
theorem witness_StatusChangesOnlyByTheSpecsEvents :
    (∃ t, step (inFlightState .gcd 12 18 0) = .next t ∧ statusWord t ≠ statusWord (inFlightState .gcd 12 18 0)) ∧
    (∃ t, step { inFlightState .gcd 12 18 0 with schedule := [.reset] } = .next t ∧
      statusWord t ≠ statusWord (inFlightState .gcd 12 18 0)) ∧
    ∃ t, step (hostState [plain (lineCmd .gcd)] [.host]) = .next t ∧
      statusWord t ≠ statusWord (hostState [plain (lineCmd .gcd)] [.host]) :=
  ⟨⟨_, rfl, by decide⟩, ⟨_, rfl, by decide⟩, _, rfl, by decide⟩

theorem witness_CommandSequenceYieldsTheOutcome :
    let s : State := { State.reset with schedule := [.core] }
    s.busy = false ∧ s.schedule = .core :: [] := by decide

theorem witness_HostOnlyLinesNeverReachTheBlock : (HostOp.add 1 2 (.imm 3)).hostOnly = true := rfl

/-- A line to run, and a program's end. -/
theorem witness_HostTurnRunsTheNextLine :
    let s := hostState [plain .halt] [.host, .core]
    (s.schedule = .host :: [.core] ∧ s.host.program[s.host.pc]? = some (plain .halt)) ∧
    (hostState [] [.host]).schedule = .host :: [] ∧
    (hostState [] [.host]).host.program[(hostState [] [.host]).host.pc]? = none := by decide

/-- A polling host with three turns before the core's. -/
theorem witness_AnyNumberOfHostStepsMayPrecedeTheCompletion :
    let s : State := { inFlightState .gcd 12 18 0 with
      host := { State.reset.host with program := linesPoll 0 1 }, schedule := [.host, .host, .host, .core] }
    s.busy = true ∧ s.schedule = List.replicate 3 .host ++ [.core] ∧
    ∀ line ∈ s.host.program, ∀ v : HostVal, line.op ≠ .memWrite 0x00 8 v := by
  refine ⟨rfl, rfl, ?_⟩
  simp [linesPoll, plain, lineRd]

end Sys2Proof.Tests
end

section
/-!
PROOFS. The scope of 00_scope.md: words read as integers (R8), and whose step it is and what that step does (R13).
-/
namespace Sys2Proof.Machine

open Sys2Proof.Safety

/-! ### Words and integers (R8) -/

theorem s64_lower (w : Word) : -2 ^ 63 ≤ s64 w := BitVec.le_toInt w

theorem s64_upper (w : Word) : s64 w ≤ 2 ^ 63 - 1 := Int.le_sub_one_of_lt (BitVec.toInt_lt (x := w))

@[simp] theorem word64_s64 (w : Word) : word64 (s64 w) = w := BitVec.ofInt_toInt

/-- On the signed range nothing is lost in a word. -/
theorem s64_word64 {i : Int} (hlow : -2 ^ 63 ≤ i) (hhigh : i ≤ 2 ^ 63 - 1) : s64 (word64 i) = i :=
  BitVec.toInt_ofInt_eq_self (by decide) hlow (Int.lt_of_le_sub_one hhigh)

/-- Settles O1: both directions are the library's facts about two's complement, at width 64. -/
theorem signedReadingAndWordAreInverse : Obligations.SignedReadingAndWordAreInverse :=
  ⟨fun w => ⟨s64_lower w, s64_upper w, word64_s64 w⟩, fun _ hlow hhigh => s64_word64 hlow hhigh⟩

/-! ### The opcodes (30_encoding.md R73) -/

@[simp] theorem opcodeCommand_opcode (i : Instr) : opcodeCommand (opcode i) = some i := by cases i <;> rfl

/-! ### What each agent's turn does (R13) -/

theorem exec_total (i : Instr) (s : State) : ∃ t, exec i s = .next t := by
  rw [exec_eq_finish]
  exact finish_total _ s

theorem coreTurn_idle {s : State} (hidle : s.busy = false) : coreTurn s = .next s := by
  simp [coreTurn, hidle]

theorem coreTurn_busy {s : State} {i : Instr} (hbusy : s.busy = true) (hop : opcodeCommand s.latOp = some i) :
    coreTurn s = exec i s := by
  simp [coreTurn, inFlight, hbusy, hop]

theorem hostTurn_line {s : State} {line : HostLine} (hline : s.host.program[s.host.pc]? = some line) :
    hostTurn s = execLine line.op s := by
  simp [hostTurn, hline]

theorem hostTurn_ended {s : State} (hend : s.host.program[s.host.pc]? = none) : hostTurn s = s := by
  simp only [hostTurn, hend]

theorem step_host {s : State} (h : nextTurn s = .host) : step s = .next (hostTurn (takeTurn s)) := by
  simp only [step, h]

theorem step_core {s : State} (h : nextTurn s = .core) : step s = coreTurn (takeTurn s) := by
  simp only [step, h]

theorem step_reset {s : State} (h : nextTurn s = .reset) : step s = .next (hardReset (takeTurn s)) := by
  simp only [step, h]

/-- A step on the core's turn with BUSY = 0: the completion step is not enabled. -/
theorem step_core_idle {s : State} (h : nextTurn s = .core) (hidle : s.busy = false) :
    step s = .next (takeTurn s) := by
  rw [step_core h, coreTurn_idle (by simpa using hidle)]

/-- A step on the core's turn with BUSY = 1: the completion step of the command that the latched opcode selects. -/
theorem step_core_busy {s : State} {i : Instr} (h : nextTurn s = .core) (hbusy : s.busy = true)
    (hop : opcodeCommand s.latOp = some i) : step s = exec i (takeTurn s) := by
  rw [step_core h, coreTurn_busy (by simpa using hbusy) (by simpa using hop)]

/-- Settles O35: the core's turn comes next from the schedule's head or past its end, and the turn taken is then that one. -/
theorem stepRunsTheCommandInFlight : Obligations.StepRunsTheCommandInFlight := by
  intro s i hbusy hop
  refine ⟨fun rest hs => ?_, fun hs => ?_⟩
  · rw [step_core_busy (nextTurn_cons hs) hbusy hop, takeTurn_cons hs]
  · rw [step_core_busy (nextTurn_nil hs) hbusy hop, takeTurn_nil hs]

/-- Settles O37: as O35, with the completion step not enabled. -/
theorem coreTurnWithoutBusyChangesNothing : Obligations.CoreTurnWithoutBusyChangesNothing := by
  intro s hidle
  refine ⟨fun rest hs => ?_, fun hs => ?_⟩
  · rw [step_core_idle (nextTurn_cons hs) hidle, takeTurn_cons hs]
  · rw [step_core_idle (nextTurn_nil hs) hidle, takeTurn_nil hs]

/-- Settles O51: taking the turn leaves the host as it is, so the line at its place is still the one to run. -/
theorem hostTurnRunsTheNextLine : Obligations.HostTurnRunsTheNextLine := by
  intro s rest hs
  refine ⟨fun line hline => ?_, fun hend => ?_⟩
  · rw [step_host (nextTurn_cons hs), hostTurn_line (by simpa using hline), takeTurn_cons hs]
  · rw [step_host (nextTurn_cons hs), hostTurn_ended (by simpa using hend), takeTurn_cons hs]

/-- Settles O41: by whose turn it is. Only the core's can stop, and only where the latched opcode selects no command. -/
theorem stepsNeverStopFromALegalState : Obligations.StepsNeverStopFromALegalState := by
  intro s hlegal
  cases hturn : nextTurn s with
  | host => exact ⟨_, step_host hturn⟩
  | reset => exact ⟨_, step_reset hturn⟩
  | core =>
    cases hbusy : s.busy with
    | false => exact ⟨_, step_core_idle hturn hbusy⟩
    | true =>
      obtain ⟨i, -, hlatOp⟩ := hlegal hbusy
      have hop : opcodeCommand s.latOp = some i := by rw [hlatOp, opcodeCommand_opcode]
      obtain ⟨t, hexec⟩ := exec_total i (takeTurn s)
      exact ⟨t, (step_core_busy hturn hbusy hop).trans hexec⟩

end Sys2Proof.Machine
end

section
/-!
PROOFS. The state of the block (10_state.md): what a read and a write of each slot does (R21 to R28), what one step can do to the
block, and the invariants that every step keeps (R29).
-/
namespace Sys2Proof.Machine

open Sys2Proof.Safety

/-! ### Accesses at a slot's own offset (R21, R53) -/

theorem access_read_slot (sl : Slot) (s : State) :
    access (.read (slotOffset sl) 8) s = (.okData (readSlot sl s), s) := by
  simp [access]

theorem access_write_slot (sl : Slot) (v : Word) (s : State) :
    access (.write (slotOffset sl) 8 v) s = (.ok, writeSlot sl v s) := by
  simp [access]

/-- Settles O9: the eight cases of a read at a slot's offset. -/
theorem readsReturnTheSlotAndChangeNothing : Obligations.ReadsReturnTheSlotAndChangeNothing := by
  intro s
  exact ⟨access_read_slot (.reg .ctrl) s, access_read_slot (.reg .cmd) s, access_read_slot (.reg .status) s,
    access_read_slot (.reg .opa) s, access_read_slot (.reg .opb) s, access_read_slot (.reg .opc) s,
    access_read_slot (.reg .result) s, access_read_slot .reserved s⟩

/-- Settles O11: a write at the offset of each operand register. -/
theorem operandWritesStoreTheWord : Obligations.OperandWritesStoreTheWord := by
  intro v s
  exact ⟨access_write_slot (.reg .opa) v s, access_write_slot (.reg .opb) v s, access_write_slot (.reg .opc) v s⟩

theorem writeCtrl_of_bit_zero {w : Word} (h : w.getLsbD 0 = true) (s : State) : writeCtrl w s = hardReset s := if_pos h

theorem writeCtrl_of_not_bit_zero {w : Word} (h : w.getLsbD 0 = false) (s : State) : writeCtrl w s = s :=
  if_neg (Bool.eq_false_iff.mp h)

/-- Settles O14: bit 0 alone decides between a reset and nothing (R181). -/
theorem ctrlWriteResetsExactlyOnBitZero : Obligations.CtrlWriteResetsExactlyOnBitZero := by
  intro w s
  refine ⟨access_read_slot (.reg .ctrl) s, fun hset => ?_, fun hclear => ?_⟩
  · exact (access_write_slot (.reg .ctrl) w s).trans (congrArg (Response.ok, ·) (writeCtrl_of_bit_zero hset s))
  · exact (access_write_slot (.reg .ctrl) w s).trans (congrArg (Response.ok, ·) (writeCtrl_of_not_bit_zero hclear s))

/-! ### The fields of STATUS (R27, R34) -/

theorem statusWord_flags (s : State) :
    (statusWord s).getLsbD 0 = s.busy ∧ (statusWord s).getLsbD 1 = s.done ∧
    (statusWord s).getLsbD 2 = s.err ∧ (statusWord s).getLsbD 3 = s.rej := by
  simp only [statusWord, BitVec.getLsbD_setWidth, BitVec.getLsbD_append]
  simp

theorem statusWord_reserved_low (s : State) : (statusWord s).extractLsb' 4 4 = 0 := by
  rw [statusWord, BitVec.extractLsb'_setWidth_of_le (by decide)]
  simp only [BitVec.extractLsb'_append_eq_of_le, Nat.reduceLeDiff, Nat.reduceSub]
  exact BitVec.extractLsb'_append_eq_right

theorem statusWord_errcode (s : State) : (statusWord s).extractLsb' 8 8 = s.errcode := by
  rw [statusWord, BitVec.extractLsb'_setWidth_of_le (by decide)]
  simp only [BitVec.extractLsb'_append_eq_of_le, Nat.reduceLeDiff, Nat.reduceSub]
  exact BitVec.extractLsb'_eq_self

/-- Above ERRCODE stand the zeros of `zext_64` (R34). -/
theorem statusWord_reserved_high (s : State) : (statusWord s).extractLsb' 16 48 = 0 := by
  rw [statusWord]
  ext k hk
  simp

/-- Settles O10: the word a read of STATUS returns, field by field. -/
theorem statusReadsItsFieldsAndZeros : Obligations.StatusReadsItsFieldsAndZeros := by
  intro s
  obtain ⟨hbusy, hdone, herr, hrej⟩ := statusWord_flags s
  exact ⟨statusWord s, access_read_slot (.reg .status) s, hbusy, hdone, herr, hrej, statusWord_reserved_low s,
    statusWord_errcode s, statusWord_reserved_high s⟩

/-! ### What a step can do to the block -/

/-- The events of the block in one step from `s`, each with its cause and with a state that has the block it leaves. -/
inductive BlockEvent (s : State) : State → Prop where
  /-- The step does not touch the block. -/
  | untouched : BlockEvent s s
  /-- The reset input, or a soft reset (R180, R181). -/
  | reset (hturn : nextTurn s ≠ .core) : BlockEvent s (hardReset s)
  /-- A host write of an operand register (R22). -/
  | operands (hturn : nextTurn s = .host) (a b c : Word) : BlockEvent s { s with opa := a, opb := b, opc := c }
  /-- A command write that found BUSY = 1 (R151). -/
  | rejected (hturn : nextTurn s = .host) (hbusy : s.busy = true) : BlockEvent s (rejectCommand s)
  /-- A command write that found BUSY = 0, of a word that is no command (R151). -/
  | refused {w : Word} {e : DecodeError} (hturn : nextTurn s = .host) (hidle : s.busy = false) (hword : decode w = .error e) :
      BlockEvent s (recordError illegalCmdCode { s with cmd := w, rej := false })
  /-- A command write that found BUSY = 0, of a command's word (R151, R28). -/
  | launched {w : Word} {i : Instr} (hturn : nextTurn s = .host) (hidle : s.busy = false) (hword : decode w = .ok i) :
      BlockEvent s (launch w { s with cmd := w, rej := false })
  /-- A completion with a result (R152). -/
  | completed {i : Instr} {r : Word} (hturn : nextTurn s = .core) (hbusy : s.busy = true)
      (hop : opcodeCommand s.latOp = some i) (hout : outcomeOn i s.latA s.latB s.latC = .complete r) :
      BlockEvent s (recordResult r s)
  /-- A completion with an error (R153). -/
  | raised {i : Instr} {e : Raised} (hturn : nextTurn s = .core) (hbusy : s.busy = true)
      (hop : opcodeCommand s.latOp = some i) (hout : outcomeOn i s.latA s.latB s.latC = .raise e) :
      BlockEvent s (recordError (raisedCode e) s)

/-- A host write to a slot, made with the host's turn taken. -/
theorem writeSlot_blockEvent (sl : Slot) (v : Word) {s : State} (hturn : nextTurn s = .host) :
    ∃ u, BlockEvent s u ∧ (writeSlot sl v (takeTurn s)).toBlock = u.toBlock := by
  rcases writeSlot_cases sl v (takeTurn s) with h | ⟨-, h⟩ | ⟨-, h⟩ | h | h | h
  · exact ⟨_, .untouched, by rw [h]; rfl⟩
  · exact ⟨_, .reset (by simp [hturn]), by rw [h]; rfl⟩
  · rw [h]
    rcases writeCmd_cases v (takeTurn s) with ⟨hbusy, hw⟩ | ⟨hidle, ⟨e, hword⟩, hw⟩ | ⟨hidle, ⟨i, hword⟩, hw⟩
    · exact ⟨_, .rejected hturn hbusy, by rw [hw]; rfl⟩
    · exact ⟨_, .refused hturn hidle hword, by rw [hw]; rfl⟩
    · exact ⟨_, .launched hturn hidle hword, by rw [hw]; rfl⟩
  · exact ⟨_, .operands hturn v s.opb s.opc, by rw [h]; rfl⟩
  · exact ⟨_, .operands hturn s.opa v s.opc, by rw [h]; rfl⟩
  · exact ⟨_, .operands hturn s.opa s.opb v, by rw [h]; rfl⟩

/-- Every step makes one of the block's events. -/
theorem step_blockEvent {s t : State} (h : step s = .next t) : ∃ u, BlockEvent s u ∧ t.toBlock = u.toBlock := by
  rcases step_next h with ⟨hturn, rfl⟩ | ⟨hturn, rfl⟩ | ⟨-, -, rfl⟩ | ⟨i, hturn, hbusy, hop, hfin⟩
  · rcases hostTurn_block (takeTurn s) with hsame | ⟨_, sl, v, -, -, hwrite⟩
    · exact ⟨s, .untouched, hsame⟩
    · rw [hwrite]
      exact writeSlot_blockEvent sl _ hturn
  · exact ⟨_, .reset (by simp [hturn]), rfl⟩
  · exact ⟨s, .untouched, rfl⟩
  · rcases finish_next hfin with ⟨r, hout, rfl⟩ | ⟨e, hout, rfl⟩
    · exact ⟨_, .completed hturn hbusy hop hout, rfl⟩
    · exact ⟨_, .raised hturn hbusy hop hout, rfl⟩

/-- Settles O44: of the block's events only a completion with a result and a reset touch RESULT. -/
theorem resultChangesOnlyBySuccessOrReset : Obligations.ResultChangesOnlyBySuccessOrReset := by
  intro s t hstep hchanged
  obtain ⟨u, hevent, hblock⟩ := step_blockEvent hstep
  rw [hblock] at hchanged ⊢
  cases hevent with
  | completed hturn hbusy => exact .inl ⟨hturn, hbusy, rfl, rfl, rfl⟩
  | reset => exact .inr rfl
  | _ => exact absurd rfl hchanged

/-- Settles O45: of the block's events only the launch of a command and a reset touch a latch. -/
theorem latchesLoadOnlyAtAcceptance : Obligations.LatchesLoadOnlyAtAcceptance := by
  intro s t hstep hchanged
  obtain ⟨u, hevent, hblock⟩ := step_blockEvent hstep
  rw [hblock] at hchanged ⊢
  cases hevent with
  | launched hturn hidle hword => exact .inl ⟨hturn, hidle, rfl, ⟨_, hword⟩, rfl, rfl, rfl, rfl⟩
  | reset => exact .inr rfl
  | _ => exact absurd ⟨rfl, rfl, rfl, rfl⟩ hchanged

/-! ### The STATUS invariants (R29) -/

theorem statusLegal_congr {s t : State} (h : t.toBlock = s.toBlock) : StatusLegal t ↔ StatusLegal s := by
  simp only [StatusLegal, h]

theorem statusLegal_of_reset {s : State} (h : s.toBlock = Block.reset) : StatusLegal s := by
  simp [StatusLegal, h]

theorem statusLegal_recordResult (r : Word) (s : State) : StatusLegal (recordResult r s) := by
  simp [StatusLegal, noErrorCode]

theorem statusLegal_launch (w : Word) (s : State) : StatusLegal (launch w s) := by
  simp [StatusLegal, noErrorCode]

theorem statusLegal_recordError {code : Byte} (hcode : code = 0x01 ∨ code = 0x02 ∨ code = 0x03) (s : State) :
    StatusLegal (recordError code s) := by
  simpa [StatusLegal] using hcode

theorem raisedCode_eq (e : Raised) : raisedCode e = 0x02 ∨ raisedCode e = 0x03 := by
  cases e
  · exact .inl rfl
  · exact .inr rfl

theorem BlockEvent.statusLegal {s u : State} (hevent : BlockEvent s u) (h : StatusLegal s) : StatusLegal u := by
  cases hevent with
  | untouched => exact h
  | reset => exact statusLegal_of_reset rfl
  | operands => exact h
  | rejected => exact h
  | refused => exact statusLegal_recordError (.inl rfl) _
  | launched => exact statusLegal_launch _ _
  | completed => exact statusLegal_recordResult _ s
  | raised => exact statusLegal_recordError (.inr (raisedCode_eq _)) s

/-- Settles O38: each of the block's events keeps the STATUS invariants. -/
theorem stepsKeepTheStatusInvariants : Obligations.StepsKeepTheStatusInvariants := by
  refine ⟨statusLegal_of_reset rfl, fun s t h hstep => ?_⟩
  obtain ⟨u, hevent, hblock⟩ := step_blockEvent hstep
  exact (statusLegal_congr hblock).mpr (hevent.statusLegal h)

/-! ### A command and its word (30_encoding.md R73) -/

theorem eq_opcode_of_opcodeCommand {op : Byte} {i : Instr} (h : opcodeCommand op = some i) : op = opcode i := by
  unfold opcodeCommand at h
  split at h <;> cases h <;> rfl

@[simp] theorem decode_encode (i : Instr) : decode (encode i) = .ok i := by cases i <;> rfl

theorem wordOfFields_commandWordOf (w : Word) : wordOfFields (commandWordOf w) = w :=
  (BitVec.extractLsb'_append_extractLsb'_eq_extractLsb' rfl).trans BitVec.extractLsb'_eq_self

/-- A word that decodes to a command has no bit in RSV and the command's opcode in OPCODE. -/
theorem fields_of_decode_ok {w : Word} {i : Instr} (h : decode w = .ok i) :
    rsvField w = 0 ∧ opcodeField w = opcode i := by
  unfold decode at h
  split_ifs at h with hrsv
  cases hop : opcodeCommand (opcodeField w) with
  | none => simp [hop] at h
  | some j =>
    obtain rfl : j = i := by simpa [hop] using h
    exact ⟨not_not.mp hrsv, eq_opcode_of_opcodeCommand hop⟩

theorem eq_encode_of_decode_ok {w : Word} {i : Instr} (h : decode w = .ok i) : w = encode i := by
  obtain ⟨hrsv, hop⟩ := fields_of_decode_ok h
  rw [← wordOfFields_commandWordOf w, commandWordOf, hrsv, hop, encode]

/-! ### The invariant of reachable states -/

theorem machineInv_congr {s t : State} (h : t.toBlock = s.toBlock) : MachineInv t ↔ MachineInv s := by
  simp only [MachineInv, StatusLegal, InFlightLegal, OutcomeShown, FreshUntilCommand, Shows, h]

/-- Where the command in flight is legal, CMD holds the word of the command that the opcode latch selects. -/
theorem inFlightLegal_cmd {s : State} {i : Instr} (h : InFlightLegal s) (hbusy : s.busy = true)
    (hop : opcodeCommand s.latOp = some i) : s.cmd = encode i ∧ s.latOp = opcode i := by
  obtain ⟨j, hcmd, hlatOp⟩ := h hbusy
  rw [hlatOp, opcodeCommand_opcode] at hop
  cases hop
  exact ⟨hcmd, hlatOp⟩

theorem outcomeShown_of_command {s : State} {i : Instr} (hcmd : s.cmd = encode i) (hlatOp : s.latOp = opcode i)
    (hshows : Shows (outcomeOn i s.latA s.latB s.latC) s) : OutcomeShown s := by
  intro _
  simpa [hcmd] using ⟨hlatOp, hshows⟩

theorem outcomeShown_of_illegal {s : State} {e : DecodeError} (hword : decode s.cmd = .error e) (herr : s.err = true)
    (hcode : s.errcode = 0x01) : OutcomeShown s := by
  intro _
  simpa [hword] using ⟨herr, hcode⟩

theorem BlockEvent.inFlightLegal {s u : State} (hevent : BlockEvent s u) (h : InFlightLegal s) : InFlightLegal u := by
  intro hbusy
  cases hevent with
  | untouched => exact h hbusy
  | operands => exact h hbusy
  | rejected => exact h hbusy
  | launched _ _ hword => exact ⟨_, eq_encode_of_decode_ok hword, (fields_of_decode_ok hword).2⟩
  | reset => cases hbusy
  | refused => cases hbusy
  | completed => cases hbusy
  | raised => cases hbusy

theorem BlockEvent.outcomeShown {s u : State} (hevent : BlockEvent s u) (hflight : InFlightLegal s) (h : OutcomeShown s) :
    OutcomeShown u := by
  cases hevent with
  | untouched => exact h
  | operands => exact h
  | rejected => exact h
  | reset => exact fun hdone => nomatch hdone
  | launched => exact fun hdone => nomatch hdone
  | refused _ _ hword => exact outcomeShown_of_illegal hword rfl rfl
  | completed _ hbusy hop hout =>
    obtain ⟨hcmd, hlatOp⟩ := inFlightLegal_cmd hflight hbusy hop
    exact outcomeShown_of_command hcmd hlatOp (by simp [hout, Shows, noErrorCode])
  | raised _ hbusy hop hout =>
    obtain ⟨hcmd, hlatOp⟩ := inFlightLegal_cmd hflight hbusy hop
    exact outcomeShown_of_command hcmd hlatOp (by simp [hout, Shows])

/-- Every event but a reset and an operand write leaves BUSY or DONE set. -/
theorem BlockEvent.freshUntilCommand {s u : State} (hevent : BlockEvent s u) (h : FreshUntilCommand s) :
    FreshUntilCommand u := by
  intro hidle hdone
  cases hevent with
  | untouched => exact h hidle hdone
  | operands _ a b c => exact congrArg (fun k : Block => { k with opa := a, opb := b, opc := c }) (h hidle hdone)
  | reset => rfl
  | rejected _ hbusy => cases hbusy.symm.trans hidle
  | launched => cases hidle
  | refused => cases hdone
  | completed => cases hdone
  | raised => cases hdone

theorem BlockEvent.machineInv {s u : State} (hevent : BlockEvent s u) (h : MachineInv s) : MachineInv u := by
  obtain ⟨hstatus, hflight, hshown, hfresh⟩ := h
  exact ⟨hevent.statusLegal hstatus, hevent.inFlightLegal hflight, hevent.outcomeShown hflight hshown,
    hevent.freshUntilCommand hfresh⟩

/-- Settles O39: each of the block's events keeps the invariant, which speaks of the block alone. -/
theorem stepsKeepTheReachableStateInvariant : Obligations.StepsKeepTheReachableStateInvariant := by
  intro s t h hstep
  obtain ⟨u, hevent, hblock⟩ := step_blockEvent hstep
  exact (machineInv_congr hblock).mpr (hevent.machineInv h)

/-! ### The completion step reads only the latches (R28) -/

/-- Settles O33: equal latches give equal outcomes, and ERR, ERRCODE and a result are read off the outcome. -/
theorem completionReadsOnlyTheLatches : Obligations.CompletionReadsOnlyTheLatches := by
  intro i s s' hA hB hC
  rw [exec_eq_finish, exec_eq_finish, hA, hB, hC]
  cases outcomeOn i s'.latA s'.latB s'.latC with
  | complete r => exact ⟨_, _, rfl, rfl, rfl, rfl, fun _ => rfl⟩
  | raise e => exact ⟨_, _, rfl, rfl, rfl, rfl, fun herr => nomatch herr⟩

end Sys2Proof.Machine
end

section
/-!
PROOFS. The window and the bus (20_memory.md): byte lanes (R54), the slots of the window (R53), which accesses are admitted (R52),
and where the window lies (R50, R51).
-/
namespace Sys2Proof.Machine

/-! ### Byte lanes (R54) -/

theorem lane_getLsbD (w : Word) (k j : Fin 8) : (lane w k).getLsbD j.val = w.getLsbD (8 * k.val + j.val) := by
  simp [lane]

/-- The lanes determine the word: its bit `i` is bit `i % 8` of lane `i / 8`. -/
theorem lanes_injective : Function.Injective lanes := by
  intro v w h
  have hlane : lane v = lane w := List.ofFn_injective h
  refine BitVec.eq_of_getLsbD_eq fun i hi => ?_
  have hv := lane_getLsbD v ⟨i / 8, by omega⟩ ⟨i % 8, by omega⟩
  have hw := lane_getLsbD w ⟨i / 8, by omega⟩ ⟨i % 8, by omega⟩
  simp only [Nat.div_add_mod] at hv hw
  rw [← hv, ← hw, hlane]

/-- A byte put below raises every other byte by 8 bits. -/
theorem extractLsb'_append_byte {n i : Nat} {x : BitVec n} {b c : Byte} (h : x.extractLsb' i 8 = c) :
    (x ++ b).extractLsb' (i + 8) 8 = c := by
  rw [BitVec.extractLsb'_append_eq_of_le (by omega), Nat.add_sub_cancel, h]

/-- Byte `k` has `k` bytes below it, each of which raises it once. -/
theorem lanes_of_ofLanes {bytes : List Byte} {w : Word} (h : ofLanes bytes = some w) : lanes w = bytes := by
  have low {n : Nat} {x : BitVec n} {b : Byte} : (x ++ b).extractLsb' 0 8 = b := BitVec.extractLsb'_append_eq_right
  have up := @extractLsb'_append_byte
  unfold ofLanes at h
  split at h
  · obtain rfl := Option.some.inj h
    simp only [lanes, lane, List.cons.injEq, and_true]
    exact ⟨low, up low, up (up low), up (up (up low)), up (up (up (up low))), up (up (up (up (up low)))),
      up (up (up (up (up (up low))))), up (up (up (up (up (up (up BitVec.extractLsb'_eq_self))))))⟩
  · cases h

/-- The word that a word's lanes hold has those lanes, so it is that word. -/
@[simp] theorem ofLanes_lanes (w : Word) : ofLanes (lanes w) = some w :=
  congrArg some (lanes_injective (lanes_of_ofLanes rfl))

/-- Settles O5: a lane is a slice of its word, and `lanes` and `ofLanes` undo each other. -/
theorem byteLanesAreLittleEndian : Obligations.ByteLanesAreLittleEndian :=
  ⟨lane_getLsbD, fun w => ⟨rfl, ofLanes_lanes w⟩, fun _ _ => lanes_of_ofLanes⟩

/-! ### The slots of the window (R21, R53) -/

theorem slotOffset_aligned (sl : Slot) : (slotOffset sl).val % 8 = 0 := by
  cases sl with
  | reserved => rfl
  | reg r => cases r <;> rfl

/-- A slot holds the bytes of its own 8-byte step of the window. -/
theorem slotHolding_of_div_eq {sl : Slot} {off : Fin 64} (h : off.val / 8 = (slotOffset sl).val / 8) :
    slotHolding off = sl := by
  rw [slotHolding, h]
  cases sl with
  | reserved => rfl
  | reg r => cases r <;> rfl

/-- Every multiple of 8 in the window is the offset of a slot, the one that holds its byte. -/
theorem slotOffset_slotHolding : ∀ {off : Fin 64}, off.val % 8 = 0 → slotOffset (slotHolding off) = off := by
  decide

/-- Settles O6: slots are 8 bytes apart, so the offset's quotient by 8 is the slot's and its remainder is the lane. -/
theorem windowBytesAreTheSlotsLanes : Obligations.WindowBytesAreTheSlotsLanes := by
  intro sl k off s hoff
  have haligned := slotOffset_aligned sl
  have hslot : slotHolding off = sl := slotHolding_of_div_eq (by omega)
  have hlane : off.val % 8 = k.val := by omega
  simp only [byteAt, hslot, hlane]

/-! ### Admitted accesses (R52, R57) -/

theorem access_not_admitted {off : Fin 64} {size : Nat} (h : admittedSlot off size = none) (v : Word) (s : State) :
    access (.read off size) s = (.busError, s) ∧ access (.write off size v) s = (.busError, s) := by
  simp [access, h]

theorem admittedSlot_none {off : Fin 64} {size : Nat} (h : size ≠ 8 ∨ off.val % 8 ≠ 0) : admittedSlot off size = none := by
  refine Option.eq_none_iff_forall_ne_some.mpr fun sl hsl => ?_
  obtain ⟨hsize, rfl⟩ := admittedSlot_some hsl
  exact h.elim (· hsize) (· (slotOffset_aligned sl))

/-- Settles O8: an 8-byte access at a multiple of 8 is one at a slot's own offset, and every other access reaches no slot. -/
theorem onlyAlignedWordAccessesAreAdmitted : Obligations.OnlyAlignedWordAccessesAreAdmitted := by
  intro off size v s
  refine ⟨fun ⟨hsize, haligned⟩ => ?_, fun h => ?_⟩
  · rw [hsize, ← slotOffset_slotHolding haligned, access_read_slot, access_write_slot]
    exact ⟨⟨_, rfl⟩, rfl⟩
  · exact access_not_admitted (admittedSlot_none h) v s

/-- Settles O12: a write at the offset of STATUS, RESULT and the reserved slot. -/
theorem readOnlySlotsIgnoreWrites : Obligations.ReadOnlySlotsIgnoreWrites := by
  intro v s
  exact ⟨access_write_slot (.reg .status) v s, access_write_slot (.reg .result) v s, access_write_slot .reserved v s⟩

/-! ### Where the window lies (R50, R51) -/

theorem baseAddr_aligned : Config.baseAddr % 64 = 0 := Nat.mul_mod_right 64 Config.windowIndex

@[simp] theorem windowOffset_inside (off : Fin 64) : windowOffset (Config.baseAddr + off.val) = some off := by
  simp [windowOffset]

theorem windowOffset_outside {addr : Nat} (h : addr < Config.baseAddr ∨ Config.baseAddr + 0x3F < addr) :
    windowOffset addr = none := by
  unfold windowOffset
  split_ifs with hlt hge
  · omega
  · rfl
  · rfl

/-- Settles O7: by the offset that an address has in the window, if it lies there. -/
theorem windowLiesAtBaseAddr : Obligations.WindowLiesAtBaseAddr := by
  refine ⟨baseAddr_aligned, fun off size v s => ?_, fun addr size v s haddr => ?_⟩
  · simp only [memRead, memWrite, windowOffset_inside, and_self]
  · simp only [memRead, memWrite, windowOffset_outside haddr, and_self]

end Sys2Proof.Machine
end

section
/-!
PROOFS. The encoding (30_encoding.md): the command words and their decoding (R70 to R75), and what each line of a host program
does (R76).
-/
namespace Sys2Proof.Machine

/-! ### Decoding, case by case (R74) -/

theorem decode_of_rsv_nonzero {w : Word} (hrsv : rsvField w ≠ 0) : decode w = .error .rsvNonZero := if_pos hrsv

theorem decode_of_fields {w : Word} {i : Instr} (hrsv : rsvField w = 0) (hop : opcodeField w = opcode i) :
    decode w = .ok i := by
  simp [decode, hrsv, hop]

theorem opcodeCommand_eq_none {op : Byte} (hop : ∀ i, op ≠ opcode i) : opcodeCommand op = none :=
  Option.eq_none_iff_forall_ne_some.mpr fun i hi => hop i (eq_opcode_of_opcodeCommand hi)

theorem decode_of_reserved_opcode {w : Word} (hrsv : rsvField w = 0) (hop : ∀ i, opcodeField w ≠ opcode i) :
    decode w = .error (.opcodeReserved (opcodeField w)) := by
  simp [decode, hrsv, opcodeCommand_eq_none hop]

/-! ### The command words (R73) -/

/-- The lanes of a command's word hold that word, so its bytes decode as the word does. -/
theorem decodeBytes_instrBytes (i : Instr) : decodeBytes (instrBytes i) = .ok i := by
  simp [decodeBytes, instrBytes]

/-- Settles O3: a word that decodes to a command has the command's fields, and the fields determine the word. -/
theorem decodeAndEncodeAgree : Obligations.DecodeAndEncodeAgree :=
  ⟨⟨rfl, rfl, rfl, rfl⟩, fun i _ => ⟨decode_encode i, decodeBytes_instrBytes i⟩, fun _ _ => eq_encode_of_decode_ok⟩

/-- Settles O4: one branch of R74 for each of the decoder's cases; an opcode that is none of the four is no command's. -/
theorem decodeIsTotalAndFollowsTheOpcodeMap : Obligations.DecodeIsTotalAndFollowsTheOpcodeMap := by
  intro w
  split_ifs with hrsv hgcd hisprime hmodinv hmodexp
  · exact ⟨_, decode_of_rsv_nonzero hrsv⟩
  · exact decode_of_fields (not_not.mp hrsv) hgcd
  · exact decode_of_fields (not_not.mp hrsv) hisprime
  · exact decode_of_fields (not_not.mp hrsv) hmodinv
  · exact decode_of_fields (not_not.mp hrsv) hmodexp
  · refine ⟨_, decode_of_reserved_opcode (not_not.mp hrsv) fun i => ?_⟩
    cases i with
    | gcd => exact hgcd
    | isprime => exact hisprime
    | modinv => exact hmodinv
    | modexp => exact hmodexp

/-- Settles O2: four command words, two words with a reserved opcode, and one with a bit of RSV. -/
theorem listedWordsDecodeAsTheTableSays : Obligations.ListedWordsDecodeAsTheTableSays :=
  ⟨decode_encode .gcd, decode_encode .isprime, decode_encode .modinv, decode_encode .modexp,
    decode_of_reserved_opcode rfl fun i => by cases i <;> decide,
    decode_of_reserved_opcode rfl fun i => by cases i <;> decide,
    decode_of_rsv_nonzero (by decide)⟩

/-! ### Host lines with one access (R76, R63) -/

theorem execLine_lineRd (h : HReg) (r : Reg) (s : State) :
    execLine (lineRd h r) s = takeResponse (some h) (.okData (readReg r s)) s := by
  simp [lineRd, execLine, hostAccess, access, readSlot]

theorem execLine_lineWr (r : Reg) (v : HostVal) (s : State) :
    execLine (lineWr r v) s = takeResponse none .ok (writeReg r (hostVal v s) s) := by
  simp [lineWr, execLine, hostAccess, access, writeSlot]

theorem writeReg_host (r : Reg) (v : Word) (s : State) : (writeReg r v s).host = s.host := writeSlot_host (.reg r) v s

/-- Settles O49: the access is admitted, and a register's write leaves the host as it is, so the answer alone moves it on. -/
theorem hostReadAndWriteLinesMakeOneAccess : Obligations.HostReadAndWriteLinesMakeOneAccess := by
  intro h r v s
  refine ⟨execLine_lineRd h r s, (execLine_lineWr r v s).trans ?_⟩
  rw [← writeReg_host r (hostVal v s) s]
  rfl

/-! ### Host-only lines (R76) -/

/-- Both ways of a branch only set the host's place. -/
theorem branchIf_eq_goTo (c : Bool) (l : Label) (s : State) :
    branchIf c l s = goTo (if c then labelIndex s.host.program l else s.host.pc + 1) s := by
  cases c <;> rfl

/-- A host-only line sets the host's registers and its place, and nothing else. -/
theorem execLine_hostOnly {op : HostOp} (hop : op.hostOnly = true) (s : State) :
    ∃ regs pc, execLine op s = { s with host := { s.host with regs := regs, pc := pc } } := by
  cases op with
  | memRead | memWrite => cases hop
  | mov | add | and | j | halt => exact ⟨_, _, rfl⟩
  | beq | bne | blt | bge | bbs | bbc => exact ⟨_, _, branchIf_eq_goTo _ _ s⟩

/-- Settles O48: the fields it names are none of those that a host-only line sets. -/
theorem hostOnlyLinesNeverReachTheBlock : Obligations.HostOnlyLinesNeverReachTheBlock := by
  intro op s hop
  obtain ⟨regs, pc, hline⟩ := execLine_hostOnly hop s
  simp [hline]

theorem branchIf_of_iff {c : Bool} {p : Prop} [Decidable p] (hc : c = true ↔ p) (l : Label) (s : State) :
    branchIf c l s = { s with host.pc := if p then labelIndex s.host.program l else s.host.pc + 1 } := by
  rw [branchIf_eq_goTo]
  simp only [hc, goTo]

theorem branchIf_of_iff_not {c : Bool} {p : Prop} [Decidable p] (hc : c = true ↔ ¬p) (l : Label) (s : State) :
    branchIf c l s = { s with host.pc := if p then s.host.pc + 1 else labelIndex s.host.program l } := by
  rw [branchIf_of_iff hc]
  simp only [ite_not]

/-- Settles O50: a computing line's word is the library's sum or bitwise and; a branch tests its condition or the negation of it,
and equal signed readings are those of equal words. -/
theorem hostOnlyLinesComputeAndBranch : Obligations.HostOnlyLinesComputeAndBranch := by
  intro h m k v l s
  refine ⟨rfl, ⟨_, BitVec.toNat_add _ _, rfl⟩, ⟨_, fun _ => BitVec.getLsbD_and, rfl⟩,
    ?beq, ?bne, ?blt, ?bge, ?bbs, ?bbc, rfl, rfl⟩
  case beq => exact branchIf_of_iff (by simp [s64, BitVec.toInt_inj]) l s
  case bne => exact branchIf_of_iff_not (by simp [s64, BitVec.toInt_inj]) l s
  case blt => exact branchIf_of_iff decide_eq_true_iff l s
  case bge => exact branchIf_of_iff_not (by simp [s64]) l s
  case bbs => exact branchIf_of_iff Iff.rfl l s
  case bbc => exact branchIf_of_iff_not (by simp) l s

end Sys2Proof.Machine
end

section
/-!
PROOFS. The command GCD (40_integer_gcd.md): the loop of R101 ends, with a value that obeys the laws of R103, and that value is the one
the completion step writes (R102). Each law is an induction on the run of the loop.
-/
namespace Sys2Proof.Safety

open Sys2Proof.Machine

/-! ### The truncated remainder (R9) in the loop -/

theorem gcd_tmod (a b : Int) : Int.gcd b (a.tmod b) = Int.gcd a b := by
  rw [Int.gcd_comm, Int.gcd_comm a, Int.gcd_def, Int.gcd_def, Int.natAbs_tmod, ← Nat.gcd_rec]

/-- A truncated remainder takes its sign from the dividend. -/
theorem sign_tmod {a b : Int} (h : a.tmod b ≠ 0) : (a.tmod b).sign = a.sign := by
  have sign_of_nat {m : Nat} (hm : (m : Int).tmod b ≠ 0) : ((m : Int).tmod b).sign = (m : Int).sign := by
    have hrem : 0 ≤ (m : Int).tmod b := Int.tmod_nonneg b m.cast_nonneg
    have hdividend : (m : Int) ≠ 0 := fun h0 => hm (by rw [h0, Int.zero_tmod])
    rw [Int.sign_eq_one_of_pos (by omega), Int.sign_eq_one_of_pos (by omega)]
  obtain ⟨m, rfl | rfl⟩ := a.eq_nat_or_neg
  · exact sign_of_nat h
  · rw [Int.neg_tmod] at h ⊢
    rw [Int.sign_neg, Int.sign_neg, sign_of_nat (neg_ne_zero.mp h)]

/-! ### The value laws of R103 -/

/-- R103.1: `|b|` decreases with each iteration, so the loop ends. -/
theorem exists_euclidRun (a b : Int) : ∃ n g, EuclidRun a b n g := by
  induction hm : b.natAbs using Nat.strong_induction_on generalizing a b with
  | _ m ih =>
    by_cases hb : b = 0
    · exact ⟨0, a, hb ▸ .stop a⟩
    · have hlt := trem_natAbs_lt a hb
      rw [trem_eq_tmod, hm] at hlt
      obtain ⟨n, g, hrun⟩ := ih _ hlt b (a.tmod b) rfl
      exact ⟨n + 1, g, .turn hb hrun⟩

/-- The bounded loop of the model ends with the same value. -/
theorem EuclidRun.gcdValue_eq {a b g : Int} {n : Nat} (hrun : EuclidRun a b n g) : gcdValue a b = g := by
  induction hrun with
  | stop a => exact gcdValue_zero a
  | turn hb _ ih => rw [gcdValue_turn _ hb, trem_eq_tmod, ih]

/-- R103.2: the value is one of the inputs or lies below `|b|`. -/
theorem EuclidRun.eq_or_natAbs_lt {a b g : Int} {n : Nat} (hrun : EuclidRun a b n g) :
    g = a ∨ g = b ∨ g.natAbs < b.natAbs := by
  induction hrun with
  | stop a => exact .inl rfl
  | @turn a b _ _ hb _ ih =>
    have hlt := trem_natAbs_lt a hb
    rw [trem_eq_tmod] at hlt
    rcases ih with rfl | rfl | hbelow
    · exact .inr (.inl rfl)
    · exact .inr (.inr hlt)
    · exact .inr (.inr (hbelow.trans hlt))

/-- R103.2: started on two words, the loop ends with a value that fits in a word. -/
theorem EuclidRun.s64_word64 {v w : Word} {g : Int} {n : Nat} (hrun : EuclidRun (s64 v) (s64 w) n g) :
    s64 (word64 g) = g := by
  have hv := And.intro (s64_lower v) (s64_upper v)
  have hw := And.intro (s64_lower w) (s64_upper w)
  have hvalue := hrun.eq_or_natAbs_lt
  exact Machine.s64_word64 (by omega) (by omega)

/-- R103.3: no iteration changes the greatest common divisor of the pair. -/
theorem EuclidRun.natAbs_eq_gcd {a b g : Int} {n : Nat} (hrun : EuclidRun a b n g) : g.natAbs = Int.gcd a b := by
  induction hrun with
  | stop a => exact Int.gcd_zero.symm
  | @turn a b _ _ _ _ ih => rw [ih, gcd_tmod]

/-- The loop runs only while `b` is not zero. -/
theorem EuclidRun.ne_zero {a b g : Int} {n : Nat} (hrun : EuclidRun a b n g) (hn : n ≠ 0) : b ≠ 0 := by
  cases hrun with
  | stop => exact absurd rfl hn
  | turn hb _ => exact hb

/-- R103.4. An iteration exchanges the parities: `b` becomes the first of the pair, and the remainder, while it is not the last
one, has the sign of `a`. -/
theorem EuclidRun.sign_eq {a b g : Int} {n : Nat} (hrun : EuclidRun a b n g) :
    (n % 2 = 0 → g.sign = a.sign) ∧ (n % 2 = 1 → g.sign = b.sign) := by
  induction hrun with
  | stop a => exact ⟨fun _ => rfl, fun hodd => nomatch hodd⟩
  | @turn a b n g _ rest ih =>
    obtain ⟨heven, hodd⟩ := ih
    refine ⟨fun hn => ?_, fun hn => heven (by omega)⟩
    have hrem : a.tmod b ≠ 0 := rest.ne_zero (by omega)
    rw [hodd (by omega), sign_tmod hrem]

/-- R103.4: a value of 0 comes from two zeros. -/
theorem EuclidRun.eq_zero {a b g : Int} {n : Nat} (hrun : EuclidRun a b n g) (hg : g = 0) : a = 0 ∧ b = 0 := by
  rw [← Int.gcd_eq_zero_iff, ← hrun.natAbs_eq_gcd, hg, Int.natAbs_zero]

/-- R103.6: with `a` zero and `b` not, the loop runs once. -/
theorem euclidRun_zero_left {b : Int} (hb : b ≠ 0) : EuclidRun 0 b 1 b :=
  .turn hb ((Int.zero_tmod b).symm ▸ .stop b)

end Sys2Proof.Safety

namespace Sys2Proof.Machine

open Sys2Proof.Safety

/-! ### The completion step of GCD (R102) -/

theorem s64_zero : s64 0 = 0 := rfl

theorem s64_ne_zero {w : Word} (hw : w ≠ 0) : s64 w ≠ 0 := fun h => hw (BitVec.eq_of_toInt_eq h)

/-- GCD records the value that any run of R101's loop on its latches ends with. -/
theorem exec_gcd_of_run {s : State} {n : Nat} {g : Int} (hrun : EuclidRun (s64 s.latA) (s64 s.latB) n g) :
    exec .gcd s = .next (recordResult (word64 g) s) := by
  rw [exec_eq_finish, outcomeOn, gcdCommand, hrun.gcdValue_eq, finish]

/-- Settles O19: the loop ends on the latched operands, with a value that fits. -/
theorem gcdCompletesWithEuclidsValue : Obligations.GcdCompletesWithEuclidsValue := by
  refine ⟨decode_encode .gcd, fun s => ?_⟩
  obtain ⟨n, g, hrun⟩ := exists_euclidRun (s64 s.latA) (s64 s.latB)
  exact ⟨n, g, hrun, hrun.s64_word64, exec_gcd_of_run hrun⟩

/-- Settles O20: the value of the loop fits, and its magnitude is the greatest common divisor. -/
theorem gcdMagnitudeIsTheGreatestCommonDivisor : Obligations.GcdMagnitudeIsTheGreatestCommonDivisor := by
  intro s
  obtain ⟨n, g, hrun⟩ := exists_euclidRun (s64 s.latA) (s64 s.latB)
  exact ⟨word64 g, exec_gcd_of_run hrun, by rw [hrun.s64_word64, hrun.natAbs_eq_gcd]⟩

/-- Settles O21: RESULT reads back as the value of the loop, which has the sign that the parity of the iterations selects. -/
theorem gcdSignFollowsTheIterationCount : Obligations.GcdSignFollowsTheIterationCount := by
  intro s n g hrun
  obtain ⟨heven, hodd⟩ := hrun.sign_eq
  refine ⟨_, exec_gcd_of_run hrun, ?_⟩
  rw [recordResult_result, hrun.s64_word64]
  exact ⟨hrun.eq_zero, fun _ => heven, fun _ => hodd⟩

/-- Settles O22: a zero in latch B gives the run of no iteration, one in latch A alone the run of one; either ends with the other
operand, and `word64` gives its word back. -/
theorem gcdWithZeroIsTheOtherOperand : Obligations.GcdWithZeroIsTheOtherOperand := by
  intro s
  refine ⟨fun hB => ?_, fun hA hB => ?_⟩
  · have hrun : EuclidRun (s64 s.latA) (s64 s.latB) 0 (s64 s.latA) := by
      rw [hB, s64_zero]
      exact .stop _
    rw [exec_gcd_of_run hrun, word64_s64]
    rfl
  · have hrun : EuclidRun (s64 s.latA) (s64 s.latB) 1 (s64 s.latB) := by
      rw [hA, s64_zero]
      exact euclidRun_zero_left (s64_ne_zero hB)
    rw [exec_gcd_of_run hrun, word64_s64]
    rfl

end Sys2Proof.Machine
end

section
/-!
PROOFS. The command ISPRIME (41_primality_test.md): what each of the tests of R111 answers, that together they decide primality (R113),
and when the completion step ends with that answer and when with `OperandRange` (R112).
-/
namespace Sys2Proof.Machine

open Sys2Proof.Safety

/-! ### The tests of R111, in their order -/

theorem isPrimeValue_of_lt_two {v : Int} (h : v < 2) : isPrimeValue v = false := if_pos h

theorem isPrimeValue_two : isPrimeValue 2 = true := rfl

theorem isPrimeValue_of_even {v : Int} (hne : v ≠ 2) (heven : v % 2 = 0) : isPrimeValue v = false := by
  simp [isPrimeValue, hne, heven]

/-- The trial loop goes through the odd numbers from 3 to the root. -/
theorem isPrimeValue_iff_of_odd {n : Nat} (hlow : 2 ≤ n) (hodd : n % 2 = 1) :
    isPrimeValue n = true ↔ ∀ i, 3 ≤ i → i % 2 = 1 → i ≤ Nat.sqrt n → n % i ≠ 0 := by
  have hloop : isPrimeValue n = trialLoop n (isqrt n) (isqrt n) 3 := by
    rw [isPrimeValue, if_neg (by omega), if_neg (by omega), if_neg (by omega), Int.toNat_natCast]
  rw [hloop, trialLoop_iff _ _ _ _ (by omega), isqrt_eq_sqrt]
  constructor
  · intro h i hi hiodd hroot
    obtain ⟨k, rfl⟩ : ∃ k, i = 3 + 2 * k := ⟨(i - 3) / 2, by omega⟩
    exact h k hroot
  · intro h k hroot
    exact h (3 + 2 * k) (by omega) (by omega) hroot

/-! ### The tests decide primality (R113) -/

/-- An odd number has no even divisor, so the odd candidates up to the root are enough. -/
theorem prime_iff_of_odd {n : Nat} (hlow : 2 ≤ n) (hodd : n % 2 = 1) :
    n.Prime ↔ ∀ i, 3 ≤ i → i % 2 = 1 → i ≤ Nat.sqrt n → n % i ≠ 0 := by
  rw [Nat.prime_def_le_sqrt]
  constructor
  · rintro ⟨-, h⟩ i hi - hroot hmod
    exact h i (by omega) hroot (Nat.dvd_of_mod_eq_zero hmod)
  · refine fun h => ⟨hlow, fun m hm hroot hdvd => ?_⟩
    have hmodd : m % 2 = 1 := Nat.odd_iff.mp ((Nat.odd_iff.mpr hodd).of_dvd_nat hdvd)
    exact h m (by omega) hmodd hroot (Nat.mod_eq_zero_of_dvd hdvd)

theorem isPrimeValue_iff_prime (n : Nat) : isPrimeValue n = true ↔ n.Prime := by
  rcases Nat.lt_or_ge n 2 with hlt | hlow
  · rw [isPrimeValue_of_lt_two (by omega)]
    exact iff_of_false Bool.false_ne_true fun hprime => absurd hprime.two_le (by omega)
  rcases Nat.mod_two_eq_zero_or_one n with heven | hodd
  · by_cases htwo : n = 2
    · subst htwo
      exact iff_of_true isPrimeValue_two Nat.prime_two
    · rw [isPrimeValue_of_even (by omega) (by omega)]
      exact iff_of_false Bool.false_ne_true fun hprime =>
        htwo ((Nat.prime_dvd_prime_iff_eq Nat.prime_two hprime).mp (Nat.dvd_of_mod_eq_zero heven)).symm
  · rw [isPrimeValue_iff_of_odd hlow hodd, prime_iff_of_odd hlow hodd]

/-- R113's own words: at least 2, and no divisor between 1 and the number. -/
theorem isPrimeValue_iff (v : Int) : isPrimeValue v = true ↔ 2 ≤ v ∧ ∀ k, 1 < k → k < v → ¬ k ∣ v := by
  rcases Int.lt_or_le v 2 with hlt | hlow
  · rw [isPrimeValue_of_lt_two hlt]
    exact iff_of_false Bool.false_ne_true fun ⟨htwo, _⟩ => absurd htwo (by omega)
  lift v to Nat using by omega
  rw [isPrimeValue_iff_prime, Nat.prime_def_lt']
  refine and_congr Nat.ofNat_le_cast.symm ⟨fun h k hk hkv hdvd => ?_, fun h m hm hmv hdvd => ?_⟩
  · lift k to Nat using by omega
    exact h k (by omega) (by omega) (Int.natCast_dvd_natCast.mp hdvd)
  · exact h m (by omega) (by omega) (Int.natCast_dvd_natCast.mpr hdvd)

/-- The tests' answer for an odd number, in the integers that R111 speaks of. -/
theorem isPrimeValue_iff_of_odd_int {v : Int} (hlow : 2 ≤ v) (hodd : v % 2 ≠ 0) :
    isPrimeValue v = true ↔ ∀ i : Int, 3 ≤ i → i % 2 = 1 → i ≤ (Nat.sqrt v.toNat : Int) → v % i ≠ 0 := by
  lift v to Nat using by omega
  rw [isPrimeValue_iff_of_odd (by omega) (by omega), Int.toNat_natCast]
  refine ⟨fun h i hi hiodd hroot => ?_, fun h i hi hiodd hroot => ?_⟩
  · lift i to Nat using by omega
    exact_mod_cast h i (by omega) (by omega) (by omega)
  · exact_mod_cast h i (by omega) (by omega) (by omega)

/-- R113: the trial loop's bound on the signed 32-bit range. -/
theorem isqrt_le_of_lt_two_pow_31 {n : Nat} (h : n < 2 ^ 31) : isqrt n ≤ 46340 := by
  rw [isqrt_eq_sqrt]
  exact Nat.le_of_lt_succ (Nat.sqrt_lt.mpr (by omega))

/-! ### The completion step of ISPRIME (R112) -/

theorem exec_isprime_of_outside {s : State} (h : s64 s.latA < -2 ^ 31 ∨ s64 s.latA > 2 ^ 31 - 1) :
    exec .isprime s = .next (recordError 0x02 s) := by
  rw [exec_eq_finish, outcomeOn, isPrimeCommand, if_pos h, finish, raisedCode]

/-- On the range ISPRIME records the answer of the tests of R111 as a word. -/
theorem exec_isprime_of_inside {s : State} (h : ¬ (s64 s.latA < -2 ^ 31 ∨ s64 s.latA > 2 ^ 31 - 1)) :
    exec .isprime s = .next (recordResult (if isPrimeValue (s64 s.latA) then 1 else 0) s) := by
  rw [exec_eq_finish, outcomeOn, isPrimeCommand, if_neg h, finish]

theorem answerWord_eq_one_iff (b : Bool) : (if b then 1 else 0 : Word) = 1 ↔ b = true := by cases b <;> decide

/-- Settles O24: the recorded word is the tests' answer, and the tests decide primality. -/
theorem isPrimeDecidesPrimality : Obligations.IsPrimeDecidesPrimality := by
  intro s hlow hhigh
  exact ⟨_, exec_isprime_of_inside (by omega), ite_eq_or_eq .., (answerWord_eq_one_iff _).trans (isPrimeValue_iff _),
    isqrt_le_of_lt_two_pow_31 (by omega)⟩

/-- Settles O23: one branch for the range check and one for each of the tests of R111. -/
theorem isPrimeTriesOddDivisorsUpToTheRoot : Obligations.IsPrimeTriesOddDivisorsUpToTheRoot := by
  refine ⟨decode_encode .isprime, fun s => ?_⟩
  split_ifs with hrange hlt htwo heven
  · exact exec_isprime_of_outside hrange
  all_goals refine ⟨_, exec_isprime_of_inside hrange, ?_⟩
  · rw [isPrimeValue_of_lt_two hlt]
    rfl
  · rw [htwo, isPrimeValue_two]
    rfl
  · rw [isPrimeValue_of_even htwo heven]
    rfl
  · exact ⟨ite_eq_or_eq .., (answerWord_eq_one_iff _).trans (isPrimeValue_iff_of_odd_int (by omega) heven)⟩

/-- Settles O25: the range check alone selects the ending. -/
theorem isPrimeChecksOnlyItsRange : Obligations.IsPrimeChecksOnlyItsRange :=
  fun _ => ⟨fun ⟨hlow, hhigh⟩ => ⟨_, ite_eq_or_eq .., exec_isprime_of_inside (by omega)⟩, exec_isprime_of_outside⟩

end Sys2Proof.Machine
end

section
/-!
PROOFS. The command MODINV (42_modular_inverse.md): the search of R121 finds the least element of the set of inverses, or finds that set
empty (R122). The closed form (R123) is what number theory says of that set: it has one element or none.
-/
namespace Sys2Proof.Machine

/-! ### The set that the search goes through (R121) -/

/-- The candidates in `[1, L]` that pass the test of R121. -/
def inverses (e L : Int) : Set Int := {d | 1 ≤ d ∧ d ≤ L ∧ (d * e) % L = 1}

/-- The search on natural numbers answers the least inverse among the integers. -/
theorem isLeast_of_inverseValue {e L : Int} {n : Nat} (he : 0 ≤ e) (h : inverseValue e L = some n) :
    IsLeast (inverses e L) n := by
  obtain ⟨hlow, hhigh, hpass, hleast⟩ := inverseSearch_some h
  lift e to Nat using he
  lift L to Nat using by omega
  refine ⟨⟨by omega, by omega, mod_cast hpass⟩, fun d ⟨hd, _, hdpass⟩ => ?_⟩
  lift d to Nat using by omega
  by_contra hlt
  exact hleast d (by omega) (by omega) (mod_cast hdpass)

theorem inverses_eq_empty_of_inverseValue {e L : Int} (he : 0 ≤ e) (h : inverseValue e L = none) : inverses e L = ∅ := by
  refine Set.eq_empty_iff_forall_notMem.mpr fun d ⟨hlow, hhigh, hpass⟩ => ?_
  lift e to Nat using he
  lift L to Nat using by omega
  lift d to Nat using by omega
  exact inverseSearch_none.mp h d (by omega) (by omega) (mod_cast hpass)

/-! ### What number theory says of that set (R123) -/

/-- A modulus with an inverse is at least 2: every product is 0 mod 1. -/
theorem two_le_of_mem_inverses {e L d : Int} (h : d ∈ inverses e L) : 2 ≤ L := by
  obtain ⟨hlow, hhigh, hpass⟩ := h
  by_contra hlt
  obtain rfl : L = 1 := by omega
  rw [Int.emod_one] at hpass
  exact zero_ne_one hpass

/-- From 2 on the test is R123's congruence, and `d = L` fails it. -/
theorem mem_inverses_iff {e L d : Int} (hL : 2 ≤ L) :
    d ∈ inverses e L ↔ 1 ≤ d ∧ d ≤ L - 1 ∧ d * e ≡ 1 [ZMOD L] := by
  have hone : 1 % L = 1 := Int.emod_eq_of_lt (by omega) (by omega)
  refine and_congr_right fun _ => ?_
  rw [Int.ModEq, hone]
  refine ⟨fun ⟨hle, hpass⟩ => ⟨?_, hpass⟩, fun ⟨hle, hpass⟩ => ⟨by omega, hpass⟩⟩
  have hne : d ≠ L := by
    rintro rfl
    rw [Int.mul_emod_right] at hpass
    exact zero_ne_one hpass
  omega

theorem gcd_eq_one_of_mem_inverses {e L d : Int} (h : d ∈ inverses e L) : Int.gcd e L = 1 := by
  obtain ⟨-, -, hpass⟩ := h
  refine Int.isCoprime_iff_gcd_eq_one.mp ⟨d, -(d * e / L), ?_⟩
  rw [← hpass, Int.emod_def]
  ring

/-- The coefficient of `e` in Bézout's identity, reduced mod `L`, is an inverse. -/
theorem exists_mem_inverses {e L : Int} (hL : 2 ≤ L) (hgcd : Int.gcd e L = 1) : ∃ d, d ∈ inverses e L := by
  obtain ⟨u, v, hbezout⟩ := Int.isCoprime_iff_gcd_eq_one.mpr hgcd
  have hpass : (u % L) * e % L = 1 := by
    rw [(Int.mod_modEq u L).mul_right e, eq_sub_of_add_eq hbezout, Int.sub_mul_emod_self_right]
    exact Int.emod_eq_of_lt (by omega) (by omega)
  have hlow := Int.emod_nonneg u (show L ≠ 0 by omega)
  have hhigh := Int.emod_lt_of_pos u (show 0 < L by omega)
  have hne : u % L ≠ 0 := by
    intro hzero
    rw [hzero, Int.zero_mul, Int.zero_emod] at hpass
    exact zero_ne_one hpass
  exact ⟨u % L, by omega, by omega, hpass⟩

/-- Two inverses are congruent mod `L`, and both are reduced. -/
theorem inverses_unique {e L d d' : Int} (hd : d ∈ inverses e L) (hd' : d' ∈ inverses e L) : d = d' := by
  have hL := two_le_of_mem_inverses hd
  have hgcd := gcd_eq_one_of_mem_inverses hd
  obtain ⟨hlow, hhigh, hcong⟩ := (mem_inverses_iff hL).mp hd
  obtain ⟨hlow', hhigh', hcong'⟩ := (mem_inverses_iff hL).mp hd'
  have hsame : d ≡ d' [ZMOD L] := by
    have hcancel := Int.ModEq.cancel_right_div_gcd (by omega) (hcong.trans hcong'.symm)
    rwa [Int.gcd_comm, hgcd, Nat.cast_one, Int.ediv_one] at hcancel
  rwa [Int.ModEq, Int.emod_eq_of_lt (by omega) (by omega), Int.emod_eq_of_lt (by omega) (by omega)] at hsame

/-- R123, second part: outside the closed form's condition the set is empty. -/
theorem inverses_eq_empty {e L : Int} (h : ¬ (2 ≤ L ∧ Int.gcd e L = 1)) : inverses e L = ∅ :=
  Set.eq_empty_iff_forall_notMem.mpr fun _ hd => h ⟨two_le_of_mem_inverses hd, gcd_eq_one_of_mem_inverses hd⟩

/-- An inverse modulo a word's value fits in a word. -/
theorem s64_word64_of_mem_inverses {e d : Int} {w : Word} (h : d ∈ inverses e (s64 w)) : s64 (word64 d) = d := by
  obtain ⟨hlow, hhigh, -⟩ := h
  exact s64_word64 (by omega) (hhigh.trans (s64_upper w))

/-! ### The completion step of MODINV (R121, R122) -/

theorem exec_modinv_of_negative {s : State} (he : s64 s.latA < 0) : exec .modinv s = .next (recordError 0x02 s) := by
  rw [exec_eq_finish, Safety.outcomeOn, modInvCommand, if_pos he, finish, raisedCode]

theorem exec_modinv_of_isLeast {s : State} {d : Int} (he : 0 ≤ s64 s.latA)
    (hd : IsLeast (inverses (s64 s.latA) (s64 s.latB)) d) : exec .modinv s = .next (recordResult (word64 d) s) := by
  rw [exec_eq_finish, Safety.outcomeOn, modInvCommand, if_neg (by omega)]
  cases hvalue : inverseValue (s64 s.latA) (s64 s.latB) with
  | some n =>
    obtain rfl := (isLeast_of_inverseValue he hvalue).unique hd
    rfl
  | none => exact absurd (inverses_eq_empty_of_inverseValue he hvalue) hd.nonempty.ne_empty

theorem exec_modinv_of_empty {s : State} (he : 0 ≤ s64 s.latA) (hempty : inverses (s64 s.latA) (s64 s.latB) = ∅) :
    exec .modinv s = .next (recordError 0x03 s) := by
  rw [exec_eq_finish, Safety.outcomeOn, modInvCommand, if_neg (by omega)]
  cases hvalue : inverseValue (s64 s.latA) (s64 s.latB) with
  | some n => exact absurd hempty (isLeast_of_inverseValue he hvalue).nonempty.ne_empty
  | none => rfl

/-- Settles O26: the search's answer is the least inverse, and it has none exactly where the set of inverses is empty. -/
theorem modInvFindsTheSmallestInverse : Obligations.ModInvFindsTheSmallestInverse := by
  refine ⟨decode_encode .modinv, fun s => ⟨exec_modinv_of_negative, fun he d hlow hhigh hpass hsmallest => ?_,
    fun he hnone => ?_⟩⟩
  · have hmem : d ∈ inverses (s64 s.latA) (s64 s.latB) := ⟨hlow, hhigh, hpass⟩
    have hleast : IsLeast (inverses (s64 s.latA) (s64 s.latB)) d :=
      ⟨hmem, fun d' ⟨hlow', _, hpass'⟩ => Int.not_lt.mp fun hlt => hsmallest d' hlow' hlt hpass'⟩
    obtain ⟨-, hreduced, -⟩ := (mem_inverses_iff (two_le_of_mem_inverses hmem)).mp hmem
    exact ⟨hreduced, s64_word64_of_mem_inverses hmem, exec_modinv_of_isLeast he hleast⟩
  · exact exec_modinv_of_empty he (Set.eq_empty_iff_forall_notMem.mpr fun d ⟨hlow, hhigh, hpass⟩ => hnone d hlow hhigh hpass)

/-- Settles O27: under the condition the only inverse is the least one; without it there is none. -/
theorem modInvMeetsItsClosedForm : Obligations.ModInvMeetsItsClosedForm := by
  refine fun s he => ⟨fun ⟨hL, hgcd⟩ => ?_, fun h => exec_modinv_of_empty he (inverses_eq_empty h)⟩
  obtain ⟨d, hmem⟩ := exists_mem_inverses hL hgcd
  have hleast : IsLeast (inverses (s64 s.latA) (s64 s.latB)) d := ⟨hmem, fun d' hd' => (inverses_unique hmem hd').le⟩
  exact ⟨d, (mem_inverses_iff hL).mp hmem,
    fun d' hlow hhigh hcong => inverses_unique ((mem_inverses_iff hL).mpr ⟨hlow, hhigh, hcong⟩) hmem,
    s64_word64_of_mem_inverses hmem, exec_modinv_of_isLeast he hleast⟩

end Sys2Proof.Machine
end

section
/-!
PROOFS. The command MODEXP (43_modular_exponentiator.md): the model's loop is a run of R131's on the integers, with one iteration for each
bit of the exponent; its value is reduced (R133), and where R132's product is not cut short the value is the power (R134). What the
completion step writes is read off that run.
-/
namespace Sys2Proof.Safety

open Sys2Proof.Machine

/-! ### The product of R132 -/

/-- The model's product on natural numbers is the spec's on integers. -/
theorem natCast_mulmod (mode : MulMode) (x y m : Nat) : (mulmod mode x y m : Int) = mulmodOf mode x y m := by
  cases mode with
  | exact => simp [mulmod_exact, mulmodOf]
  | wrap => simp [mulmod_wrap, mulmodOf]

theorem emod_mem_Ico (x : Int) {m : Int} (hm : 1 ≤ m) : x % m ∈ Set.Ico 0 m :=
  ⟨Int.emod_nonneg x (by omega), Int.emod_lt_of_pos x (by omega)⟩

theorem mulmodOf_mem_Ico (mode : MulMode) (x y : Int) {m : Int} (hm : 1 ≤ m) : mulmodOf mode x y m ∈ Set.Ico 0 m := by
  cases mode with
  | exact => exact emod_mem_Ico _ hm
  | wrap => exact emod_mem_Ico _ hm

/-- On factors reduced mod `m`, the product is taken in full before its reduction. -/
def MulmodIsFull (mode : MulMode) (m : Int) : Prop :=
  ∀ x ∈ Set.Ico 0 m, ∀ y ∈ Set.Ico 0 m, mulmodOf mode x y m = x * y % m

theorem mulmodIsFull_exact (m : Int) : MulmodIsFull .exact m := fun _ _ _ _ => rfl

/-- R134.2: up to `m = 2^32` a product of reduced factors is below 2^64, so `WRAP` cuts nothing off. -/
theorem mulmodIsFull_of_le (mode : MulMode) {m : Int} (hm : m ≤ 2 ^ 32) : MulmodIsFull mode m := by
  rintro x ⟨hx, hxm⟩ y ⟨hy, hym⟩
  cases mode with
  | exact => rfl
  | wrap =>
    have hlt : x * y < 2 ^ 64 := calc
      x * y < 2 ^ 32 * 2 ^ 32 := mul_lt_mul'' (by omega) (by omega) hx hy
      _ = 2 ^ 64 := by norm_num
    rw [mulmodOf, Int.emod_eq_of_lt (mul_nonneg hx hy) hlt]

/-! ### The loop of R131 -/

/-- Halving takes one bit off. -/
theorem size_eq_size_half_succ {n : Nat} (hn : 0 < n) : n.size = (n / 2).size + 1 := by
  have hbit : Nat.bit n.bodd (n / 2) = n := by rw [← Nat.div2_val, Nat.bit_bodd_div2]
  conv_lhs => rw [← hbit]
  exact Nat.size_bit (by omega)

/-- The model's loop is a run of R131's, with one iteration for each bit of the exponent (R134.5). -/
theorem powRun_powLoop (mode : MulMode) (m exp r b : Nat) :
    PowRun mode m exp r b exp.size (powLoop mode m exp exp r b) := by
  induction exp using Nat.strong_induction_on generalizing r b with
  | _ exp ih =>
    rcases Nat.eq_zero_or_pos exp with rfl | hpos
    · rw [powLoop_zero]
      exact .stop _ _
    rw [size_eq_size_half_succ hpos, powLoop_turn mode m r b hpos]
    have rest := ih (exp / 2) (by omega)
    rcases Nat.mod_two_eq_zero_or_one exp with heven | hodd
    · rw [if_neg (by omega)]
      refine .even (mod_cast hpos) (mod_cast heven) ?_
      simpa only [natCast_mulmod, Int.natCast_ediv, Nat.cast_ofNat] using rest r (mulmod mode b b m)
    · rw [if_pos hodd]
      refine .odd (mod_cast hpos) (mod_cast hodd) ?_
      simpa only [natCast_mulmod, Int.natCast_ediv, Nat.cast_ofNat] using rest (mulmod mode r b m) (mulmod mode b b m)

/-- R133: a reduced `r` stays reduced. -/
theorem PowRun.mem_Ico {mode : MulMode} {m exp r b out : Int} {n : Nat} (hrun : PowRun mode m exp r b n out) (hm : 1 ≤ m)
    (hr : r ∈ Set.Ico 0 m) : out ∈ Set.Ico 0 m := by
  induction hrun with
  | stop => exact hr
  | odd _ _ _ ih => exact ih (mulmodOf_mem_Ico mode _ _ hm)
  | even _ _ _ ih => exact ih hr

/-- The loop keeps `r * b^exp` mod `m`: an odd exponent gives one factor `b` to `r`, and half the exponent goes with `b * b`. -/
theorem PowRun.eq_mul_pow {mode : MulMode} {m exp r b out : Int} {n : Nat} (hrun : PowRun mode m exp r b n out)
    (hfull : MulmodIsFull mode m) (hm : 1 ≤ m) (hr : r ∈ Set.Ico 0 m) (hb : b ∈ Set.Ico 0 m) :
    out = r * b ^ exp.toNat % m := by
  induction hrun with
  | stop r b =>
    obtain ⟨hlow, hhigh⟩ := hr
    simp [Int.emod_eq_of_lt hlow hhigh]
  | @odd exp r b n out hpos hodd _ ih =>
    have hexp : exp.toNat = 2 * (exp / 2).toNat + 1 := by omega
    rw [ih (mulmodOf_mem_Ico mode _ _ hm) (mulmodOf_mem_Ico mode _ _ hm), hfull r hr b hb, hfull b hb b hb, hexp]
    calc (r * b % m) * (b * b % m) ^ (exp / 2).toNat
        ≡ (r * b) * (b * b) ^ (exp / 2).toNat [ZMOD m] := (Int.mod_modEq _ m).mul ((Int.mod_modEq _ m).pow _)
      _ = r * b ^ (2 * (exp / 2).toNat + 1) := by ring
  | @even exp r b n out hpos heven _ ih =>
    have hexp : exp.toNat = 2 * (exp / 2).toNat := by omega
    rw [ih hr (mulmodOf_mem_Ico mode _ _ hm), hfull b hb b hb, hexp]
    calc r * (b * b % m) ^ (exp / 2).toNat
        ≡ r * (b * b) ^ (exp / 2).toNat [ZMOD m] := ((Int.mod_modEq _ m).pow _).mul_left r
      _ = r * b ^ (2 * (exp / 2).toNat) := by ring

/-- R134.1: started as R131 starts it, the loop ends with the power. -/
theorem PowRun.eq_pow {mode : MulMode} {base exp m out : Int} {n : Nat}
    (hrun : PowRun mode m exp (1 % m) (base % m) n out) (hfull : MulmodIsFull mode m) (hm : 1 ≤ m) :
    out = base ^ exp.toNat % m := by
  rw [hrun.eq_mul_pow hfull hm (emod_mem_Ico 1 hm) (emod_mem_Ico base hm)]
  calc (1 % m) * (base % m) ^ exp.toNat
      ≡ 1 * base ^ exp.toNat [ZMOD m] := (Int.mod_modEq 1 m).mul ((Int.mod_modEq base m).pow _)
    _ = base ^ exp.toNat := one_mul _

end Sys2Proof.Safety

namespace Sys2Proof.Machine

open Sys2Proof.Safety

/-! ### The command on its domain and outside it (R133) -/

/-- On its domain MODEXP completes with what R131's loop leaves in `r`. -/
theorem modExpCommand_of_domain (mode : MulMode) {a b c : Word} (h : 0 ≤ s64 a ∧ 0 ≤ s64 b ∧ 1 ≤ s64 c) :
    ∃ r, PowRun mode (s64 c) (s64 b) (1 % s64 c) (s64 a % s64 c) (s64 b).toNat.size r ∧
      modExpCommand mode a b c = .complete (word64 r) := by
  obtain ⟨hbase, hexp, hm⟩ := h
  refine ⟨modExpValue mode (s64 a).toNat (s64 b).toNat (s64 c).toNat, ?_, if_neg (by omega)⟩
  have hrun := powRun_powLoop mode (s64 c).toNat (s64 b).toNat (1 % (s64 c).toNat) ((s64 a).toNat % (s64 c).toNat)
  push_cast [Int.toNat_of_nonneg hbase, Int.toNat_of_nonneg hexp, Int.toNat_of_nonneg (show 0 ≤ s64 c by omega)] at hrun
  exact hrun

/-- Where the product is full, the outcome is the power. -/
theorem modExpCommand_of_full {mode : MulMode} {a b c : Word} (h : 0 ≤ s64 a ∧ 0 ≤ s64 b ∧ 1 ≤ s64 c)
    (hfull : MulmodIsFull mode (s64 c)) :
    modExpCommand mode a b c = .complete (word64 (s64 a ^ (s64 b).toNat % s64 c)) := by
  obtain ⟨r, hrun, hcommand⟩ := modExpCommand_of_domain mode h
  obtain ⟨-, -, hm⟩ := h
  rw [hcommand, hrun.eq_pow hfull hm]

theorem exec_modexp_of_complete {s : State} {r : Word}
    (h : modExpCommand Config.mulMode s.latA s.latB s.latC = .complete r) :
    exec .modexp s = .next (recordResult r s) := by
  rw [exec_eq_finish, outcomeOn, h, finish]

theorem exec_modexp_of_outside {s : State} (h : s64 s.latA < 0 ∨ s64 s.latB < 0 ∨ s64 s.latC < 1) :
    exec .modexp s = .next (recordError 0x02 s) := by
  rw [exec_eq_finish, outcomeOn, modExpCommand, if_pos h, finish, raisedCode]

/-- R134.5: a word's value has at most 63 bits. -/
theorem size_toNat_s64_le (w : Word) : (s64 w).toNat.size ≤ 63 := by
  have hhigh := s64_upper w
  exact Nat.size_le.mpr (by omega)

/-- R133: the loop, started as R131 starts it, ends with a value reduced mod a word's value, which fits in a word. -/
theorem powRun_result_bounds {mode : MulMode} {exp base out : Int} {n : Nat} {w : Word} (hm : 1 ≤ s64 w)
    (hrun : PowRun mode (s64 w) exp (1 % s64 w) base n out) :
    0 ≤ out ∧ out ≤ s64 w - 1 ∧ s64 (word64 out) = out := by
  obtain ⟨hlow, hhigh⟩ := hrun.mem_Ico hm (emod_mem_Ico 1 hm)
  have hupper := s64_upper w
  exact ⟨hlow, by omega, s64_word64 (by omega) (by omega)⟩

/-! ### The obligations -/

/-- Settles O28: the model's loop is the run, the exponent's bits are those of a word's value, and the run's value fits. -/
theorem modExpRunsSquareAndMultiply : Obligations.ModExpRunsSquareAndMultiply := by
  refine ⟨decode_encode .modexp, fun s => ⟨fun h => ?_, exec_modexp_of_outside⟩⟩
  obtain ⟨r, hrun, hcommand⟩ := modExpCommand_of_domain Config.mulMode h
  obtain ⟨-, -, hm⟩ := h
  obtain ⟨-, -, hfits⟩ := powRun_result_bounds hm hrun
  exact ⟨_, r, hrun, rfl, size_toNat_s64_le s.latB, hfits, exec_modexp_of_complete hcommand⟩

/-- Settles O29: RESULT reads back as the value of the loop, which stays reduced. -/
theorem modExpResultIsReducedOrOutOfRange : Obligations.ModExpResultIsReducedOrOutOfRange := by
  refine fun s => ⟨fun h => ?_, exec_modexp_of_outside⟩
  obtain ⟨r, hrun, hcommand⟩ := modExpCommand_of_domain Config.mulMode h
  obtain ⟨-, -, hm⟩ := h
  obtain ⟨hlow, hhigh, hfits⟩ := powRun_result_bounds hm hrun
  exact ⟨word64 r, by rwa [hfits], by rwa [hfits], exec_modexp_of_complete hcommand⟩

/-- Settles O30: up to `m = 2^32` the product is full in either mode. -/
theorem modExpWithSmallModulusIsThePower : Obligations.ModExpWithSmallModulusIsThePower :=
  fun _ hbase hexp hm hsmall =>
    exec_modexp_of_complete (modExpCommand_of_full ⟨hbase, hexp, hm⟩ (mulmodIsFull_of_le Config.mulMode hsmall))

/-- Settles O31: under `EXACT` the product is full for every modulus. -/
theorem modExpUnderExactIsThePower : Obligations.ModExpUnderExactIsThePower :=
  fun _ _ c hbase hexp hm => modExpCommand_of_full ⟨hbase, hexp, hm⟩ (mulmodIsFull_exact (s64 c))

end Sys2Proof.Machine
end

section
/-!
PROOFS. The command life (60_exceptions.md): the three cases of a command write (R151), what a completion changes (R152, R153), which
command raises which error (R150), and which events STATUS records (R156).
-/
namespace Sys2Proof.Machine

open Sys2Proof.Safety

/-! ### The command write (R151) -/

theorem access_write_cmd (w : Word) (s : State) : access (.write 0x08 8 w) s = (.ok, writeCmd w s) :=
  access_write_slot (.reg .cmd) w s

theorem writeCmd_busy {s : State} (hbusy : s.busy = true) (w : Word) : writeCmd w s = rejectCommand s := if_pos hbusy

theorem writeCmd_idle {s : State} (hidle : s.busy = false) (w : Word) : writeCmd w s = acceptCommand w s :=
  if_neg (Bool.eq_false_iff.mp hidle)

/-- Settles O13: BUSY decides whether the word is accepted, and the decoder what an accepted word does. -/
theorem commandWriteRejectsRefusesOrLaunches : Obligations.CommandWriteRejectsRefusesOrLaunches := by
  intro w s
  rw [access_write_cmd]
  refine ⟨fun hbusy => ?_, fun hidle ⟨e, hword⟩ => ?_, fun hidle ⟨i, hword⟩ => ?_⟩
  · rw [writeCmd_busy hbusy]
    rfl
  · rw [writeCmd_idle hidle, acceptCommand_illegal hword]
    rfl
  · rw [writeCmd_idle hidle, acceptCommand_legal hword]
    rfl

/-- REJ is neither read nor written by a completion, whatever the outcome. -/
theorem finish_rejectCommand (o : CmdOutcome) (s : State) :
    ∃ t, finish o s = .next t ∧ finish o (rejectCommand s) = .next { t with rej := true } := by
  cases o with
  | complete r => exact ⟨_, rfl, rfl⟩
  | raise e => exact ⟨_, rfl, rfl⟩

/-- Settles O17: the rejected write sets REJ alone, so the latches, and with them the outcome, are the same. -/
theorem rejectionDoesNotDisturbTheCommandInFlight : Obligations.RejectionDoesNotDisturbTheCommandInFlight := by
  intro i w s hbusy
  rw [access_write_cmd, writeCmd_busy hbusy, exec_eq_finish, exec_eq_finish]
  exact finish_rejectCommand _ s

/-! ### An accepted word and the core's next turn (R151, R152) -/

/-- The core's turn after an acceptance finds BUSY set and the word's opcode in the latch. -/
theorem step_acceptCommand {s : State} {w : Word} {i : Instr} {rest : List Turn} (hs : s.schedule = .core :: rest)
    (hword : decode w = .ok i) : step (acceptCommand w s) = exec i { acceptCommand w s with schedule := rest } := by
  obtain ⟨-, hop⟩ := fields_of_decode_ok hword
  have hlatOp : opcodeCommand (opcodeField w) = some i := by rw [hop, opcodeCommand_opcode]
  rw [acceptCommand_legal hword]
  obtain ⟨hscheduled, -⟩ := stepRunsTheCommandInFlight (launch w { s with cmd := w, rej := false }) i rfl hlatOp
  exact hscheduled rest hs

theorem decode_of_decodeTableWord {nbits w : Nat} {i : Instr} (h : decodeTableWord nbits w = some i) :
    decode (tableWord nbits w) = .ok i := by
  rw [decodeTableWord, decodeBytes, ofLanes_lanes] at h
  cases hword : decode (tableWord nbits w) with
  | error e => simp [hword, Except.toOption] at h
  | ok j =>
    obtain rfl : j = i := by simpa [hword, Except.toOption] using h
    rfl

/-- Settles O36: the write of CMD and `withFetchWord` are both an acceptance with the core's turn next. -/
theorem stepRunsTheDecodedWord : Obligations.StepRunsTheDecodedWord := by
  refine ⟨fun s w i rest hidle hs hword => ?_, fun s nbits w i hword => ?_⟩
  · rw [access_write_cmd, writeCmd_idle hidle]
    exact ⟨_, rfl, step_acceptCommand hs hword⟩
  · exact step_acceptCommand rfl (decode_of_decodeTableWord hword)

/-! ### What a completion changes (R152, R153) -/

/-- Both endings write RESULT and STATUS without REJ, and nothing else; an error gives RESULT back its own value. -/
theorem exec_writes_result_and_status (i : Instr) (s : State) : ∃ (r : Word) (err : Bool) (code : Byte),
    exec i s = .next { s with result := r, busy := false, done := true, err := err, errcode := code } ∧
    (err = false → code = 0x00) ∧ (err = true → r = s.result ∧ (code = 0x02 ∨ code = 0x03)) := by
  rw [exec_eq_finish]
  cases outcomeOn i s.latA s.latB s.latC with
  | complete r => exact ⟨r, false, 0x00, rfl, fun _ => rfl, fun herr => nomatch herr⟩
  | raise e => exact ⟨s.result, true, raisedCode e, rfl, (absurd · (by decide)), fun _ => ⟨rfl, raisedCode_eq e⟩⟩

/-- No other slot of the window shows RESULT or a field of STATUS. -/
theorem readSlot_of_ne_result_status {sl : Slot} (hstatus : sl ≠ .reg .status) (hresult : sl ≠ .reg .result) (s : State)
    (r : Word) (busy done err : Bool) (code : Byte) :
    readSlot sl { s with result := r, busy := busy, done := done, err := err, errcode := code } = readSlot sl s := by
  cases sl with
  | reserved => rfl
  | reg q =>
    cases q with
    | status => exact absurd rfl hstatus
    | result => exact absurd rfl hresult
    | _ => rfl

/-- A byte lies among the eight of the slot that holds it. -/
theorem slotHolding_bounds : ∀ off : Fin 64, (slotOffset (slotHolding off)).val ≤ off.val ∧
    off.val ≤ (slotOffset (slotHolding off)).val + 7 := by
  decide

theorem slotHolding_ne {sl : Slot} {off : Fin 64}
    (h : ¬ ((slotOffset sl).val ≤ off.val ∧ off.val ≤ (slotOffset sl).val + 7)) : slotHolding off ≠ sl := by
  rintro rfl
  exact h (slotHolding_bounds off)

/-- Settles O32: RESULT and STATUS are all that a completion writes, and a byte outside their slots is a lane of another slot. -/
theorem everyCommandCompletesWithinItsFrame : Obligations.EveryCommandCompletesWithinItsFrame := by
  intro i s
  obtain ⟨r, err, code, hexec, hsuccess, herror⟩ := exec_writes_result_and_status i s
  refine ⟨_, hexec, rfl, rfl, rfl, rfl, rfl, rfl, rfl, rfl, rfl, rfl, rfl, rfl, rfl, rfl, rfl, hsuccess, herror,
    fun off hstatus hresult => ?_⟩
  rw [byteAt, readSlot_of_ne_result_status (slotHolding_ne hstatus) (slotHolding_ne hresult), byteAt]

/-! ### Which command raises which error (R150) -/

/-- Only MODINV has an operand pair without an inverse, and GCD takes every operand. -/
theorem outcomeOn_raise {i : Instr} {a b c : Word} {e : Raised} (h : outcomeOn i a b c = .raise e) :
    (e = .operandRange ∧ i ≠ .gcd) ∨ (e = .noInverse ∧ i = .modinv) := by
  cases i with
  | gcd => cases h
  | isprime =>
    rw [outcomeOn, isPrimeCommand] at h
    split at h <;> cases h
    exact .inl ⟨rfl, by decide⟩
  | modinv =>
    rw [outcomeOn, modInvCommand] at h
    split at h
    · cases h
      exact .inl ⟨rfl, by decide⟩
    · split at h <;> cases h
      exact .inr ⟨rfl, rfl⟩
  | modexp =>
    rw [outcomeOn, modExpCommand] at h
    split at h <;> cases h
    exact .inl ⟨rfl, by decide⟩

theorem encode_of_ne_gcd {i : Instr} (h : i ≠ .gcd) : encode i = 0x2 ∨ encode i = 0x3 ∨ encode i = 0x4 := by
  cases i with
  | gcd => exact absurd rfl h
  | isprime => exact .inl rfl
  | modinv => exact .inr (.inl rfl)
  | modexp => exact .inr (.inr rfl)

/-- An ended command that shows an error either had no command's word in CMD, or raised that error. -/
theorem outcomeShown_error {s : State} (h : OutcomeShown s) (hdone : s.done = true) (herr : s.err = true) :
    (s.errcode = 0x01 ∧ ∃ e, decode s.cmd = .error e) ∨
    ∃ i e, s.cmd = encode i ∧ outcomeOn i s.latA s.latB s.latC = .raise e ∧ s.errcode = raisedCode e := by
  have hshown := h hdone
  cases hword : decode s.cmd with
  | error e =>
    rw [hword] at hshown
    obtain ⟨-, hcode⟩ := hshown
    exact .inl ⟨hcode, e, rfl⟩
  | ok i =>
    rw [hword] at hshown
    obtain ⟨-, hshows⟩ := hshown
    cases hout : outcomeOn i s.latA s.latB s.latC with
    | complete r =>
      rw [hout] at hshows
      obtain ⟨hclear, -⟩ := hshows
      exact absurd herr (by simp [hclear])
    | raise e =>
      rw [hout] at hshows
      obtain ⟨-, hcode⟩ := hshows
      exact .inr ⟨i, e, eq_encode_of_decode_ok hword, hout, hcode⟩

/-- Settles O42: an error stands with DONE, so the invariant shows the outcome of the word in CMD. -/
theorem errorCodesNameTheirCause : Obligations.ErrorCodesNameTheirCause := by
  rintro s ⟨⟨-, herror, hclear, -⟩, -, hshown, -⟩
  refine ⟨hclear, fun herr => ?_⟩
  obtain ⟨hdone, -⟩ := herror herr
  rcases outcomeShown_error hshown hdone herr with hillegal | ⟨i, e, hcmd, hraise, hcode⟩
  · exact .inl hillegal
  rw [hcmd]
  rcases outcomeOn_raise hraise with ⟨rfl, hne⟩ | ⟨rfl, rfl⟩
  · exact .inr (.inl ⟨hcode, encode_of_ne_gcd hne⟩)
  · exact .inr (.inr ⟨hcode, rfl⟩)

/-! ### Which events STATUS records (R156, R27) -/

theorem statusWord_congr {s t : State} (h : t.toBlock = s.toBlock) : statusWord t = statusWord s := by
  simp only [statusWord, h]

/-- A write to any other slot leaves STATUS as it reads. -/
theorem writeSlot_changes_statusWord {sl : Slot} {v : Word} {s : State}
    (h : statusWord (writeSlot sl v s) ≠ statusWord s) : sl = .reg .ctrl ∨ sl = .reg .cmd := by
  rcases writeSlot_cases sl v s with hw | ⟨hctrl, -⟩ | ⟨hcmd, -⟩ | hw | hw | hw
  · exact absurd (congrArg statusWord hw) h
  · exact .inl hctrl
  · exact .inr hcmd
  all_goals exact absurd (congrArg statusWord hw) h

theorem hostTurn_changes_statusWord {s : State} (h : statusWord (hostTurn s) ≠ statusWord s) :
    ∃ (line : HostLine) (off : Fin 64) (v : HostVal),
      s.host.program[s.host.pc]? = some line ∧ line.op = .memWrite off 8 v ∧ (off = 0x00 ∨ off = 0x08) := by
  rcases hostTurn_block s with hsame | ⟨line, sl, v, hline, hop, hwrite⟩
  · exact absurd (statusWord_congr hsame) h
  · rw [statusWord_congr hwrite] at h
    refine ⟨line, slotOffset sl, v, hline, hop, ?_⟩
    exact (writeSlot_changes_statusWord h).imp (congrArg slotOffset) (congrArg slotOffset)

/-- Settles O46: by whose turn it is. The core's turn with BUSY = 0 and a taken turn leave the block as it is, and a host turn's
effect on it is that of one write to a slot. -/
theorem statusChangesOnlyByTheSpecsEvents : Obligations.StatusChangesOnlyByTheSpecsEvents := by
  intro s t hstep hchanged
  rcases step_next hstep with ⟨hturn, rfl⟩ | ⟨hturn, -⟩ | ⟨-, -, rfl⟩ | ⟨_, hturn, hbusy, -⟩
  · exact .inr (.inr ⟨hturn, hostTurn_changes_statusWord (s := takeTurn s) hchanged⟩)
  · exact .inr (.inl hturn)
  · exact absurd rfl hchanged
  · exact .inl ⟨hturn, hbusy⟩

end Sys2Proof.Machine
end

section
/-!
PROOFS. Reset and hazards (70_reset_and_hazards.md): the two resets (R180, R190), the command sequence (R184), operand writes
while BUSY (R189), and the steps that come before a completion (R186).
-/
namespace Sys2Proof.Machine

open Sys2Proof.Safety

/-! ### The state a reset leaves (R180) -/

theorem statusWord_of_reset {s : State} (h : s.toBlock = Block.reset) : statusWord s = 0 :=
  (statusWord_congr (s := State.reset) h).trans (by decide)

theorem readSlot_of_reset {s : State} (h : s.toBlock = Block.reset) (sl : Slot) : readSlot sl s = 0 := by
  cases sl with
  | reserved => rfl
  | reg r =>
    cases r with
    | status => exact statusWord_of_reset h
    | ctrl => rfl
    | _ => simp [readSlot, readReg, h]

/-- Settles O15: the turn is taken off the schedule, and the reset puts `Block.reset` for the block's record. -/
theorem hardwareResetClearsTheBlock : Obligations.HardwareResetClearsTheBlock := by
  intro s rest hs
  have hstep := step_reset (nextTurn_cons hs)
  rw [takeTurn_cons hs] at hstep
  exact ⟨_, hstep, rfl, statusWord_of_reset rfl⟩

/-- Settles O16: the state after reset holds the reset block. -/
theorem resetStateReadsZero : Obligations.ResetStateReadsZero :=
  ⟨readSlot_of_reset rfl, rfl, rfl, rfl, rfl⟩

/-- Settles O40: neither BUSY nor DONE stands after reset, and the block is as `FreshUntilCommand` asks. -/
theorem resetStateHasTheInvariant : Obligations.ResetStateHasTheInvariant :=
  ⟨statusLegal_of_reset rfl, (nomatch ·), (nomatch ·), fun _ _ => rfl⟩

/-- Settles O18: the write is a reset, and the core's turn then finds BUSY = 0. -/
theorem softResetAbortsTheCommandInFlight : Obligations.SoftResetAbortsTheCommandInFlight := by
  intro s rest _ hs
  obtain ⟨-, hreset, -⟩ := ctrlWriteResetsExactlyOnBitZero 0x1 s
  obtain ⟨hturn, -⟩ := coreTurnWithoutBusyChangesNothing (hardReset s) rfl
  exact ⟨hardReset s, hreset (by decide), rfl, statusWord_of_reset rfl, rfl, rfl, rfl, hturn rest hs⟩

/-! ### Operand writes and the completion (R189) -/

/-- The operand registers are neither read nor written by a completion, whatever the outcome. -/
theorem finish_operandWrite (o : CmdOutcome) (v : Word) (s : State) : ∃ t, finish o s = .next t ∧
    finish o { s with opa := v } = .next { t with opa := v } ∧
    finish o { s with opb := v } = .next { t with opb := v } ∧
    finish o { s with opc := v } = .next { t with opc := v } := by
  cases o with
  | complete r => exact ⟨_, rfl, rfl, rfl, rfl⟩
  | raise e => exact ⟨_, rfl, rfl, rfl, rfl⟩

/-- Settles O34: an operand write leaves the latches, and with them the outcome, as they are. -/
theorem operandWritesDoNotReachTheCommandInFlight : Obligations.OperandWritesDoNotReachTheCommandInFlight := by
  intro i v s
  simp only [exec_eq_finish]
  exact finish_operandWrite _ v s

/-! ### The command sequence (R184) -/

/-- A completion step leaves a state that shows the command's outcome on the latches. -/
theorem shows_of_exec {i : Instr} {s t : State} (h : exec i s = .next t) :
    Shows (outcomeOn i s.latA s.latB s.latC) t := by
  rw [exec_eq_finish] at h
  rcases finish_next h with ⟨r, hout, rfl⟩ | ⟨e, hout, rfl⟩
  · rw [hout]
    exact ⟨rfl, rfl, rfl⟩
  · rw [hout]
    exact ⟨rfl, rfl⟩

/-- The three operand writes of R184, one after the other. -/
theorem access_operandWrites (a b c : Word) (s : State) :
    (access (.write 0x28 8 c) (access (.write 0x20 8 b) (access (.write 0x18 8 a) s).2).2).2 =
      { s with opa := a, opb := b, opc := c } := rfl

/-- Settles O47: the idle block launches the command, which latches the operands just written and clears REJ, and the core's turn
completes it, writing RESULT and STATUS alone. -/
theorem commandSequenceYieldsTheOutcome : Obligations.CommandSequenceYieldsTheOutcome := by
  intro i a b c s rest hidle hs
  have hturn := step_acceptCommand (s := { s with opa := a, opb := b, opc := c }) hs (decode_encode i)
  rw [access_operandWrites, access_write_cmd, writeCmd_idle]
  case hidle => exact hidle
  rw [acceptCommand_legal (decode_encode i)] at hturn ⊢
  obtain ⟨r, err, code, hexec, -, herror⟩ := exec_writes_result_and_status i { launch (encode i)
    { s with opa := a, opb := b, opc := c, cmd := encode i, rej := false } with schedule := rest }
  have hshows := shows_of_exec hexec
  exact ⟨_, _, rfl, rfl, rfl, hturn.trans hexec, rfl, rfl, rfl, hshows, fun herr => (herror herr).1, rfl, rfl, rfl, rfl⟩

/-! ### Runs (R13) -/

theorem run_succ {s t : State} (h : step s = .next t) (k : Nat) :
    Host.Core.run Sys2Proof.core (k + 1) s = Host.Core.run Sys2Proof.core k t := by
  have hcore : Sys2Proof.core.step s = .next t := h
  simp only [Host.Core.run, hcore]

theorem finish_schedule {o : CmdOutcome} {s t : State} (h : finish o s = .next t) : t.schedule = s.schedule := by
  rcases finish_next h with ⟨r, -, rfl⟩ | ⟨e, -, rfl⟩ <;> rfl

/-- A step takes its turn off the schedule and no other. -/
theorem step_schedule {s t : State} (h : step s = .next t) : t.schedule = turnsAfter s := by
  rcases step_next h with ⟨-, rfl⟩ | ⟨-, rfl⟩ | ⟨-, -, rfl⟩ | ⟨_, -, -, -, hfin⟩
  · exact hostTurn_schedule _
  · rfl
  · rfl
  · exact finish_schedule hfin

/-! ### Every command in flight ends (R186) -/

theorem inFlightLegal_congr {s t : State} (h : t.toBlock = s.toBlock) : InFlightLegal t ↔ InFlightLegal s := by
  simp only [InFlightLegal, h]

theorem step_inFlightLegal {s t : State} (hstep : step s = .next t) (h : InFlightLegal s) : InFlightLegal t := by
  obtain ⟨u, hevent, hblock⟩ := step_blockEvent hstep
  exact (inFlightLegal_congr hblock).mpr (hevent.inFlightLegal h)

/-- The core's turn ends the command in flight, and where there is none BUSY is clear already. -/
theorem step_core_clears_busy {s t : State} (hturn : nextTurn s = .core) (hstep : step s = .next t) : t.busy = false := by
  rcases step_next hstep with ⟨hother, -⟩ | ⟨hother, -⟩ | ⟨-, hidle, rfl⟩ | ⟨_, -, -, -, hfin⟩
  · simp [hturn] at hother
  · simp [hturn] at hother
  · exact hidle
  · rcases finish_next hfin with ⟨r, -, rfl⟩ | ⟨e, -, rfl⟩ <;> rfl

/-- Settles O43: by induction on the turns still scheduled, of which a step takes one. Past the last the core's turn comes. -/
theorem everyCommandInFlightEnds : Obligations.EveryCommandInFlightEnds := by
  intro s hlegal
  generalize hs : s.schedule = turns
  induction turns generalizing s with
  | nil =>
    obtain ⟨t, hstep⟩ := stepsNeverStopFromALegalState s hlegal
    exact ⟨1, t, Nat.le_refl 1, run_succ hstep 0, step_core_clears_busy (nextTurn_nil hs) hstep⟩
  | cons turn rest ih =>
    obtain ⟨t, hstep⟩ := stepsNeverStopFromALegalState s hlegal
    have hrest : t.schedule = rest := by rw [step_schedule hstep, turnsAfter, hs]
    obtain ⟨k, u, hk, hrun, hidle⟩ := ih t (step_inFlightLegal hstep hlegal) hrest
    exact ⟨k + 1, u, Nat.succ_le_succ hk, (run_succ hstep k).trans hrun, hidle⟩

/-! ### Host steps before the completion (R185, R186, R189) -/

/-- `t` has the block of `s`, but for the operand registers and REJ. -/
def SameButOperandsAndRej (s t : State) : Prop :=
  ∃ (a b c : Word) (rej : Bool), t.toBlock = { s.toBlock with opa := a, opb := b, opc := c, rej := rej }

theorem SameButOperandsAndRej.of_eq {s t : State} (h : t.toBlock = s.toBlock) : SameButOperandsAndRej s t :=
  ⟨s.opa, s.opb, s.opc, s.rej, h⟩

theorem SameButOperandsAndRej.trans {s t u : State} (hst : SameButOperandsAndRej s t) (htu : SameButOperandsAndRej t u) :
    SameButOperandsAndRej s u := by
  obtain ⟨_, _, _, _, hst⟩ := hst
  obtain ⟨a, b, c, rej, htu⟩ := htu
  exact ⟨a, b, c, rej, by rw [htu, hst]⟩

theorem SameButOperandsAndRej.busy {s t : State} (h : SameButOperandsAndRej s t) : t.busy = s.busy := by
  obtain ⟨_, _, _, _, h⟩ := h
  rw [h]

/-- While BUSY every slot but CTRL is an operand register, CMD, whose write is rejected, or one that ignores the write. -/
theorem writeSlot_busy {sl : Slot} {s : State} (hctrl : sl ≠ .reg .ctrl) (hbusy : s.busy = true) (v : Word) :
    SameButOperandsAndRej s (writeSlot sl v s) := by
  rcases writeSlot_cases sl v s with h | ⟨hsl, -⟩ | ⟨-, h⟩ | h | h | h
  · exact .of_eq (congrArg State.toBlock h)
  · exact absurd hsl hctrl
  · rw [h, writeCmd_busy hbusy]
    exact ⟨s.opa, s.opb, s.opc, true, rfl⟩
  · exact ⟨v, s.opb, s.opc, s.rej, congrArg State.toBlock h⟩
  · exact ⟨s.opa, v, s.opc, s.rej, congrArg State.toBlock h⟩
  · exact ⟨s.opa, s.opb, v, s.rej, congrArg State.toBlock h⟩

/-- No line of the program is an admitted write of CTRL: the premise of the obligation, under a name. -/
def NeverWritesCtrl (program : List HostLine) : Prop :=
  ∀ line ∈ program, ∀ v : HostVal, line.op ≠ .memWrite 0x00 8 v

theorem hostTurn_busy {s : State} (hbusy : s.busy = true) (hprogram : NeverWritesCtrl s.host.program) :
    SameButOperandsAndRej s (hostTurn s) := by
  rcases hostTurn_block s with hsame | ⟨line, sl, v, hline, hop, hwrite⟩
  · exact .of_eq hsame
  · have hctrl : sl ≠ .reg .ctrl := by
      rintro rfl
      exact hprogram line (List.mem_of_getElem? hline) v hop
    obtain ⟨a, b, c, rej, h⟩ := writeSlot_busy hctrl hbusy (hostVal v s)
    exact ⟨a, b, c, rej, hwrite.trans h⟩

@[simp] theorem afterBusError_program (s : State) : (afterBusError s).host.program = s.host.program := by
  unfold afterBusError; split <;> rfl

@[simp] theorem takeResponse_program (dest : Option HReg) (r : Response) (s : State) :
    (takeResponse dest r s).host.program = s.host.program := by
  unfold takeResponse; split <;> simp

@[simp] theorem access_host (a : Access) (s : State) : (access a s).2.host = s.host := by
  cases a with
  | read off size => rw [access_read_state]
  | write off size v =>
    rcases access_write_state off size v s with ⟨-, h⟩ | ⟨sl, -, h⟩ <;> simp [h]

/-- No line changes the program it stands in. -/
theorem execLine_program (op : HostOp) (s : State) : (execLine op s).host.program = s.host.program := by
  cases hop : op.hostOnly with
  | true =>
    obtain ⟨-, -, -, -, h⟩ := hostOnlyLinesNeverReachTheBlock op s hop
    exact h
  | false =>
    cases op with
    | memRead | memWrite => simp [execLine, hostAccess]
    | _ => cases hop

theorem hostTurn_program (s : State) : (hostTurn s).host.program = s.host.program := by
  unfold hostTurn
  split
  · exact execLine_program _ s
  · rfl

/-- A run of host turns from a state with BUSY = 1. Each leaves BUSY and the program as they are, so the premises hold again at the
next. -/
theorem run_host_turns (n : Nat) {s : State} {rest : List Turn} (hbusy : s.busy = true)
    (hs : s.schedule = List.replicate n .host ++ rest) (hprogram : NeverWritesCtrl s.host.program) :
    ∃ t, Host.Core.run Sys2Proof.core n s = .next t ∧ t.schedule = rest ∧ SameButOperandsAndRej s t := by
  induction n generalizing s with
  | zero => exact ⟨s, rfl, hs, .of_eq rfl⟩
  | succ n ih =>
    rw [List.replicate_succ, List.cons_append] at hs
    have hstep := step_host (nextTurn_cons hs)
    have hkept : SameButOperandsAndRej s (hostTurn (takeTurn s)) := hostTurn_busy (s := takeTurn s) hbusy hprogram
    obtain ⟨t, hrun, hrest, hkept'⟩ := ih (hkept.busy.trans hbusy) (by rw [hostTurn_schedule, takeTurn_cons hs])
      (by rw [hostTurn_program]; exact hprogram)
    exact ⟨t, (run_succ hstep n).trans hrun, hrest, hkept.trans hkept'⟩

/-- Settles O52: the fields it names are none of those that a host turn can change while BUSY. -/
theorem anyNumberOfHostStepsMayPrecedeTheCompletion : Obligations.AnyNumberOfHostStepsMayPrecedeTheCompletion := by
  intro n s rest hbusy hs hprogram
  obtain ⟨t, hrun, hrest, _, _, _, _, hblock⟩ := run_host_turns n hbusy hs hprogram
  refine ⟨t, hrun, hrest, ?_⟩
  rw [hblock]
  exact ⟨hbusy, rfl, rfl, rfl, rfl, rfl, rfl⟩

end Sys2Proof.Machine
end
